-- ==== Sys2Proof/Word.lean ====
section
/-! DEFINITION. The bit-vector types of the CORE (spec/00_scope.md section 5): every value is unsigned, bit 0 the least
significant bit. -/

namespace Sys2Proof

/-- An 8-bit unsigned value: the accumulator, the operand `din`, a table index, a table entry (R30, R52, R74). -/
abbrev Byte := BitVec 8

/-- The 2-bit opcode field `op` (R51). -/
abbrev OpCode := BitVec 2

/-- The 10-bit command word `cmd[9:0]`, the op field above the operand byte (R50). -/
abbrev CmdWord := BitVec 10

end Sys2Proof
end

