-- ==== Sys2Proof/Config.lean ====
section
/-! DEFINITION. What is fixed for this hardware and is not state (R2, R24, R53), and the one free value.
The table `T`, the fourth thing R24 lists, is in `Sys2Proof/Machine/Table.lean`. -/

namespace Sys2Proof.Config

/-- POLY, the truncated form of x^8 + x^2 + x + 1 (R2). -/
def poly : Byte := 0x07#8

/-- INIT_VALUE, the value INIT and reset write (R2, R21, R82). -/
def initValue : Byte := 0x00#8

/-- The opcode of NOP (R53). -/
def opNop : OpCode := 0b00#2

/-- The opcode of INIT (R53). -/
def opInit : OpCode := 0b01#2

/-- The opcode of UPD (R53). -/
def opUpd : OpCode := 0b10#2

/-- The opcode of LOAD (R53). -/
def opLoad : OpCode := 0b11#2

/-- FREE VALUE: what the host gets from the port `crc` while `acc` is `UNDEF` (R14, U1 of
spec/93_implementation_defined.md), one value for each draw; nothing constrains it. Log entry 2. -/
opaque unwrittenCrc : Nat → Byte

end Sys2Proof.Config
end

