-- ==== Sys2Proof/Syntax.lean ====
section
/-! DEFINITION. The command set (R53, R87): one constructor for each row of spec/opcode_table.json. -/

namespace Sys2Proof

/-- The four commands. NOP and INIT carry no operand, because the 256 values of `din` that may accompany them are not
distinct commands (R54). -/
inductive Instr where
  | nop                 -- R81: hold
  | init                -- R82: seed
  | upd (din : Byte)    -- R83: fold the message byte `din`
  | load (din : Byte)   -- R84: write the value `din`
deriving DecidableEq, Repr

end Sys2Proof
end

