-- ==== Sys2Proof/WellFormed.lean ====
section
/-! DEFINITION. Well-formedness. The operand types carry every constraint the spec puts on a command, so every `Instr`
is well formed (R52, R55); the two checks that can fail are on numbers from outside: a number given as an operand byte
(R57) and a number given as a command word (R57; spec/95_test_vectors.md 2.4: "Words 0x400 and above do not exist"). -/

namespace Sys2Proof

/-- `n` can be written as an operand byte: 0..255 (R52, R57). -/
def operandInRange (n : Nat) : Bool := decide (n < 256)

/-- `n` is a command word: 0x000 to 0x3FF (R50, R57). -/
def wordExists (n : Nat) : Bool := decide (n < 1024)

/-- A command is well formed when the operand it carries is a byte; the type makes it one, so this holds of every
command (R52, R55: "all `u8` inputs are valid"). -/
def Instr.wellFormed : Instr → Bool
  | .nop => true
  | .init => true
  | .upd din => operandInRange din.toNat
  | .load din => operandInRange din.toNat

end Sys2Proof
end

