-- ==== Sys2Proof/Decode.lean ====
section
/-! DEFINITION. The command word, its decoder and its encoder (spec/30_encoding.md). The hardware's decoder is total on
the 1024 words (R55). The byte form below it is not the hardware's: a command word is never stored (R50), so the byte
order is the opcode table's bit numbering, first byte = bits 7..0 (log entry 5). -/

namespace Sys2Proof

/-- `cmd[9:0]`, the word with `op` in bits 9:8 and `din` in bits 7:0 (R50). -/
def cmdWord (op : OpCode) (din : Byte) : CmdWord := op ++ din

/-- Field `op`, `cmd[9:8]` (R51). -/
def cmdOp (w : CmdWord) : OpCode := w.extractLsb' 8 2

/-- Field `din`, `cmd[7:0]`, used as it is (R52). -/
def cmdDin (w : CmdWord) : Byte := w.extractLsb' 0 8

/-- The decoder: a total function, selected by the op field alone (R53, R55); NOP and INIT drop `din` (R54). -/
def decode (w : CmdWord) : Instr :=
  if cmdOp w = Config.opNop then .nop
  else if cmdOp w = Config.opInit then .init
  else if cmdOp w = Config.opUpd then .upd (cmdDin w)
  else .load (cmdDin w)

/-- The opcode of a command (R53). -/
def Instr.opcode : Instr → OpCode
  | .nop => Config.opNop
  | .init => Config.opInit
  | .upd _ => Config.opUpd
  | .load _ => Config.opLoad

/-- The operand byte of a command as an assembler emits it: `din`, and 0x00 for a command that ignores it (R54). -/
def Instr.operand : Instr → Byte
  | .nop => 0x00#8
  | .init => 0x00#8
  | .upd din => din
  | .load din => din

/-- The encoder: the canonical word of a command (R54, R58). -/
def encode (i : Instr) : CmdWord := cmdWord i.opcode i.operand

/-- The mnemonic of a command, as spec/opcode_table.json spells it (R53). -/
def Instr.mnemonic : Instr → String
  | .nop => "NOP"
  | .init => "INIT"
  | .upd _ => "UPD"
  | .load _ => "LOAD"

/-- A row of the opcode map in match-and-mask form: a word `w` is the command when `w AND mask = match` (R53
continued). -/
structure OpcodeRow where
  mnemonic : String
  mask     : CmdWord
  pattern  : CmdWord
deriving DecidableEq, Repr

/-- The opcode map: four rows that exhaust the words (R53 continued). -/
def opcodeTable : List OpcodeRow :=
  [⟨"NOP", 0x300#10, 0x000#10⟩, ⟨"INIT", 0x300#10, 0x100#10⟩,
   ⟨"UPD", 0x300#10, 0x200#10⟩, ⟨"LOAD", 0x300#10, 0x300#10⟩]

/-- Why a byte form is no command. No command WORD is ever rejected (R55). -/
inductive DecodeReject where
  | truncated                 -- fewer than the two bytes that hold 10 bits
  | noSuchWord (value : Nat)  -- a bit above bit 9 is set: 0x400 and above do not exist
deriving DecidableEq, Repr

/-- Decode the byte form: two bytes, bits 7..0 then bits 9..8, and the bytes after them. -/
def decodeBytes : List Byte → Except DecodeReject (Instr × List Byte)
  | low :: high :: rest =>
    let value := low.toNat + 256 * high.toNat
    if wordExists value then .ok (decode (BitVec.ofNat 10 value), rest)
    else .error (.noSuchWord value)
  | _ => .error .truncated

/-- The byte form of a command's canonical word. -/
def encodeBytes (i : Instr) : List Byte :=
  [BitVec.ofNat 8 (encode i).toNat, BitVec.ofNat 8 ((encode i).toNat / 256)]

/-- The bits of a table row as its number: what lies above `nbits` is 0. -/
def tableValue (nbits w : Nat) : Nat := w % 2 ^ nbits

/-- The command the decoder reads from a word numbered as spec/opcode_table.json numbers it; none for a number with a
bit above bit 9, which is no command word. -/
def decodeTableWord (nbits w : Nat) : Option Instr :=
  if wordExists (tableValue nbits w) then
    match decodeBytes [BitVec.ofNat 8 (tableValue nbits w), BitVec.ofNat 8 (tableValue nbits w / 256)] with
    | .ok (i, _) => some i
    | .error _ => none
  else none

end Sys2Proof
end

