-- ==== Sys2Proof/Machine/Operands.lean ====
section
/-! DEFINITION. The operand forms: the byte `din`, used as it is (R52), and the one addressing mode, the table index of
UPD (R35, R88). -/

namespace Sys2Proof.Machine

/-- `rom_a`, the effective address of UPD's table read: `acc XOR din`, 8 bits, no carry, scaling or offset (R75, R88). -/
def tableIndex (acc din : Byte) : Byte := acc ^^^ din

end Sys2Proof.Machine
end

