-- ==== Sys2Proof/Machine/State.lean ====
section
/-! DEFINITION. The state of the CORE (spec/10_state.md), the three outcomes' reasons, and the state after reset. -/

namespace Sys2Proof.Machine

/-- What the host presents at one rising edge of `clk`: the three sampled input ports (R13). The fields are definite
bits, which is the host's duty (R131, log entry 6). -/
structure Edge where
  rst : Bool
  op  : OpCode
  din : Byte
deriving DecidableEq, Repr

/-- The machine. `acc` is all the architectural state there is (R10, R15 to R20, R23); the table is a constant (R19).
`edges` is the host's input sequence (R134), and `draws` belongs to the model. -/
structure State where
  /-- the accumulator; `none` is the spec's `UNDEF`, the content nothing has yet written (R10, R22, R73) -/
  acc   : Option Byte
  /-- what the host presents at the coming edges, the next one first (R80, R134; log entry 3) -/
  edges : List Edge
  /-- how many free values the host has drawn by reading `crc` while `acc` is `UNDEF` (U1; log entry 2) -/
  draws : Nat
deriving DecidableEq, Repr

/-- Why the machine stops with a fault: never (R80, R100, R109: "a model has no fault constructor for the CORE"). -/
inductive Fault where
deriving DecidableEq, Repr

/-- Why an instruction has no meaning. -/
inductive Refusal where
  /-- Raised by an arm of `exec` for an instruction without a meaning; safe. No arm raises it: all four have theirs. -/
  | notModelled (mnemonic : String)
deriving DecidableEq, Repr

/-- The machine right after a reset edge: `acc = 0x00` (R21, R121); the host presents nothing yet. -/
def State.reset : State := { acc := some Config.initValue, edges := [], draws := 0 }

/-- The machine at power-up: `acc = UNDEF` (R22, R124, U9). -/
def State.powerUp : State := { acc := none, edges := [], draws := 0 }

end Sys2Proof.Machine
end

