-- ==== Sys2Proof/Machine/Ops.lean ====
section
/-! DEFINITION. The named operations on the machine: the accumulator, the reset gate, the input port, the output port,
the power. There is no writable memory (R33, R38) and no exception to take or return from (R100, R104, R105), so no
operation on either. -/

namespace Sys2Proof.Machine

/-- Read the accumulator, `UNDEF` included (R12). -/
def readAcc (s : State) : Option Byte := s.acc

/-- `acc <- v`: the write at the edge; nothing else changes (R12, R80). -/
def writeAcc (v : Option Byte) (s : State) : State := { s with acc := v }

/-- What a sampled edge with `rst = 1` does: `acc <- 0x00`, whatever `acc` was (R120). -/
def resetAcc (s : State) : State := writeAcc (some Config.initValue) s

/-- The next rising edge's inputs and the state in which they have been sampled; none when the host gives no edge. A
sampled input is gone: the CORE keeps no copy of it (R5, R20). -/
def takeEdge (s : State) : Option (Edge × State) :=
  match s.edges with
  | [] => none
  | e :: rest => some (e, { s with edges := rest })

/-- Between edges, and where the host gives no further edge (a stopped clock, U9), nothing changes (R80; log entry 3). -/
def noEdge (s : State) : State := s

/-- The command word on the ports at an edge (R50). -/
def Edge.word (e : Edge) : CmdWord := cmdWord e.op e.din

/-- An edge with `rst = 0` that presents the command word `w` (R50). -/
def Edge.command (w : CmdWord) : Edge := { rst := false, op := cmdOp w, din := cmdDin w }

/-- An edge with `rst = 1`, the word `w` being ignored (R56, R120). -/
def Edge.reset (w : CmdWord) : Edge := { rst := true, op := cmdOp w, din := cmdDin w }

/-- The edge at which the host presents a command by its canonical word (R54, R58). -/
def Edge.ofInstr (i : Instr) : Edge := Edge.command (encode i)

/-- The host presents further edges, after those it has already given (R44, R134). -/
def present (es : List Edge) (s : State) : State := { s with edges := s.edges ++ es }

/-- The output port: `crc = acc` at all times, nothing applied in between; `none` is unspecified (R14). -/
def crc (s : State) : Option Byte := readAcc s

/-- The host reads the port (R134): the value, and the state after the read. While `acc` is `UNDEF` each read draws a
fresh free value (U1); otherwise reading changes nothing. -/
def readCrc (s : State) : Byte × State :=
  match crc s with
  | some v => (v, s)
  | none => (Config.unwrittenCrc s.draws, { s with draws := s.draws + 1 })

/-- Power is removed and comes back: `acc` returns to `UNDEF` (R108, U9). -/
def losePower (s : State) : State := writeAcc none s

end Sys2Proof.Machine
end

