-- ==== Sys2Proof/Machine/Datapath.lean ====
section
/-! DEFINITION. The combinational datapath (spec/40_datapath.md): the byte update, the feedback mux, and the sub-blocks
of R77. `f(UNDEF) = UNDEF` for a function that depends on its argument (spec/00_scope.md section 5). -/

namespace Sys2Proof.Machine

/-- `UpdateByte(c, d) = T[c XOR d]` (R72). -/
def updateByte (c d : Byte) : Byte := T (tableIndex c d)

/-- The byte update of an accumulator that may be `UNDEF` (R73, R83, R86). -/
def updateAcc (acc : Option Byte) (d : Byte) : Option Byte := acc.map (updateByte · d)

/-- `next_acc(op, acc, din)`: the feedback mux, a case on the two bits of `op` (R73). -/
def nextAcc (op : OpCode) (acc : Option Byte) (din : Byte) : Option Byte :=
  if op = Config.opNop then acc
  else if op = Config.opInit then some Config.initValue
  else if op = Config.opUpd then updateAcc acc din
  else some din

/-- One edge on the accumulator alone: the pseudocode of R80. -/
def edgeAcc (acc : Option Byte) (e : Edge) : Option Byte :=
  if e.rst then some Config.initValue else nextAcc e.op acc e.din

/-- The nets between the sub-blocks of R77; none is a port and none is state. -/
structure Nets where
  romA : Option Byte   -- index XOR
  romQ : Option Byte   -- ROM
  accD : Option Byte   -- feedback mux
  accN : Option Byte   -- reset gate
deriving DecidableEq, Repr

/-- The index XOR sub-block (R75, R77). -/
def indexXor (acc : Option Byte) (din : Byte) : Option Byte := acc.map (tableIndex · din)

/-- The ROM sub-block: no clock, no enable (R77). -/
def rom (romA : Option Byte) : Option Byte := romA.map T

/-- The feedback mux sub-block: its UPD arm is the net `rom_q`, and `op[1]`, `op[0]` are its two select inputs (R51, R77). -/
def feedbackMux (op : OpCode) (acc romQ : Option Byte) (din : Byte) : Option Byte :=
  if op.getLsbD 1 then
    if op.getLsbD 0 then some din else romQ
  else
    if op.getLsbD 0 then some Config.initValue else acc

/-- The reset gate sub-block (R77). -/
def resetGate (rst : Bool) (accD : Option Byte) : Option Byte := if rst then some Config.initValue else accD

/-- The nets in a cycle, from `acc` and the inputs, whatever `op` and `rst` are (R75, R77). -/
def nets (acc : Option Byte) (e : Edge) : Nets :=
  let romA := indexXor acc e.din
  let romQ := rom romA
  let accD := feedbackMux e.op acc romQ e.din
  { romA, romQ, accD, accN := resetGate e.rst accD }

end Sys2Proof.Machine
end

