-- ==== Sys2Proof/Machine/Commands.lean ====
section
/-! DEFINITION. The four commands (spec/41_commands.md section 2): each writes `acc` and nothing else, raises nothing and
always completes (R80, R100). -/

namespace Sys2Proof.Machine

/-- NOP: `acc <- acc` (R81). -/
def execNop (s : State) : Host.Outcome State Fault Refusal := .next (writeAcc (readAcc s) s)

/-- INIT: `acc <- 0x00`, without reading `acc` (R82). -/
def execInit (s : State) : Host.Outcome State Fault Refusal := .next (writeAcc (some Config.initValue) s)

/-- UPD: `acc <- T[acc XOR din]`; on `UNDEF` it leaves `UNDEF` (R83, R86). -/
def execUpd (din : Byte) (s : State) : Host.Outcome State Fault Refusal := .next (writeAcc (updateAcc (readAcc s) din) s)

/-- LOAD: `acc <- din`, every value, no clamp, without reading `acc` or the table (R11, R84). -/
def execLoad (din : Byte) (s : State) : Host.Outcome State Fault Refusal := .next (writeAcc (some din) s)

end Sys2Proof.Machine
end

