-- ==== Sys2Proof/Machine/Step.lean ====
section
/-! DEFINITION. The step: one rising edge of `clk` (R80). -/

namespace Sys2Proof.Machine

/-- One rising edge: the host's next inputs are sampled; reset has priority over the command, which is then neither
decoded nor deferred (R56, R103, R120); otherwise the one command presented is executed (R80). Where the host gives no
further edge nothing changes (R80: "Between edges nothing changes at all"; log entry 3). -/
def step (s : State) : Host.Outcome State Fault Refusal :=
  match takeEdge s with
  | none => .next (noEdge s)
  | some (e, sampled) => if e.rst then .next (resetAcc sampled) else exec (decode e.word) sampled

/-- The state in which the next edge presents the table word `w` with `rst = 0`, in place of what the host was about to
present there; later edges stay. A number that is no command word (`decodeTableWord` answers none) cannot be presented,
and its low 10 bits are. -/
def State.withFetchWord (s : State) (nbits w : Nat) : State :=
  { s with edges := Edge.command (BitVec.ofNat 10 (tableValue nbits w)) :: s.edges.tail }

end Sys2Proof.Machine
end

