-- ==== Sys2Proof/Machine/Operations.lean ====
section
/-! DEFINITION. The source's public operations as command sequences (spec/42_operations.md): the fold `crc8`, and the
expansions of UPDATE, CALC and CALCNULL that R59 names. The loop, the buffer and its length are the host's (R87, R95):
a message is a list, which has its own length (U2). -/

namespace Sys2Proof.Machine

/-- `fold(c, B)`: the left fold of `UpdateByte` from `c` (R99). -/
def fold (c : Byte) (message : List Byte) : Byte := message.foldl updateByte c

/-- `crc8(B) = fold(0x00, B)` (R99). -/
def crc8 (message : List Byte) : Byte := fold Config.initValue message

/-- One UPD per byte, in message order (R39, R91). -/
def updates (message : List Byte) : List Instr := message.map .upd

/-- `UPDATE c, b` expands to `LOAD c; UPD b` (R90). -/
def expandUpdate (c b : Byte) : List Instr := [.load c, .upd b]

/-- `UPDATE c, b` where the host knows that `acc` holds `c`: `UPD b` alone (R90). -/
def expandUpdateHeld (b : Byte) : List Instr := [.upd b]

/-- `CALC [b0, ..., b(n-1)]` expands to `INIT; UPD b0; ...; UPD b(n-1)` (R92); the empty message is INIT alone (R94). -/
def expandCalc (message : List Byte) : List Instr := .init :: updates message

/-- `CALCNULL` expands to `INIT` alone (R93). -/
def expandCalcNull : List Instr := [.init]

/-- The host's side of the source's streaming use: `Update` called once per byte, each expanded in full with the value
the call before returned (R96). -/
def expandStreaming (c : Byte) : List Byte → List Instr
  | [] => []
  | b :: rest => expandUpdate c b ++ expandStreaming (updateByte c b) rest

/-- The edges at which the host presents a command sequence, one command an edge (R80, R132). -/
def edgesOf (commands : List Instr) : List Edge := commands.map Edge.ofInstr

/-- The accumulator after a sequence of edges: R80's pseudocode, edge by edge (R44). -/
def accAfter (acc : Option Byte) (es : List Edge) : Option Byte := es.foldl edgeAcc acc

end Sys2Proof.Machine
end

