-- ==== Sys2Proof/Machine/Assembler.lean ====
section
/-! DEFINITION. The assembler syntax (spec/30_encoding.md section 4, R57 to R59): lines, their text, their command words,
and the disassembler. It is the spec's own notation and no property of the hardware (D17); the machine uses none of it. -/

namespace Sys2Proof.Machine

/-- One line of assembly (R57, R59). -/
inductive AsmLine where
  | empty                         -- no command, or a comment alone
  | nop
  | init
  | upd (b : Byte)
  | load (v : Byte)
  | word (w : CmdWord)            -- `.word 0xNNN`
  | reset                         -- an edge with `rst = 1`
  | update (c b : Byte)           -- `UPDATE c, b`
  | calcOf (message : List Byte)    -- `CALC [b0, ..., b(n-1)]`
  | calcNull                      -- `CALCNULL`
deriving DecidableEq, Repr

/-- The edges a line stands for (R57 to R59). -/
def assemble : AsmLine → List Edge
  | .empty => []
  | .nop => edgesOf [.nop]
  | .init => edgesOf [.init]
  | .upd b => edgesOf [.upd b]
  | .load v => edgesOf [.load v]
  | .word w => [Edge.command w]
  | .reset => [Edge.reset 0#10]
  | .update c b => edgesOf (expandUpdate c b)
  | .calcOf message => edgesOf (expandCalc message)
  | .calcNull => edgesOf expandCalcNull

/-- The disassembler, by the first hexadecimal digit; for 0 and 1 the low two digits are dropped (R58). -/
def disassemble (w : CmdWord) : AsmLine :=
  match decode w with
  | .nop => .nop
  | .init => .init
  | .upd b => .upd b
  | .load v => .load v

/-- The character of a hexadecimal digit, upper case (R57). -/
def hexChar (d : Nat) : Char := if d < 10 then Char.ofNat (48 + d) else Char.ofNat (55 + d)

/-- `0xHH` (R57). -/
def printByte (b : Byte) : List Char := ['0', 'x', hexChar (b.toNat / 16), hexChar (b.toNat % 16)]

/-- A command word as three hexadecimal digits (R57). -/
def printWord (w : CmdWord) : List Char :=
  [hexChar (w.toNat / 256), hexChar (w.toNat / 16 % 16), hexChar (w.toNat % 16)]

/-- The operands of a CALC, separated by commas (R59). -/
def printBytes : List Byte → List Char
  | [] => []
  | [b] => printByte b
  | b :: rest => printByte b ++ [','] ++ printBytes rest

/-- The text of a line (R57, R59). -/
def printLine : AsmLine → List Char
  | .empty => []
  | .nop => ['N', 'O', 'P']
  | .init => ['I', 'N', 'I', 'T']
  | .upd b => ['U', 'P', 'D', ' '] ++ printByte b
  | .load v => ['L', 'O', 'A', 'D', ' '] ++ printByte v
  | .word w => ['.', 'w', 'o', 'r', 'd', ' ', '0', 'x'] ++ printWord w
  | .reset => ['R', 'E', 'S', 'E', 'T']
  | .update c b => ['U', 'P', 'D', 'A', 'T', 'E', ' '] ++ printByte c ++ [',', ' '] ++ printByte b
  | .calcOf message => ['C', 'A', 'L', 'C', ' ', '['] ++ printBytes message ++ [']']
  | .calcNull => ['C', 'A', 'L', 'C', 'N', 'U', 'L', 'L']

/-- A listing line of a command: the edge number, the word as three hexadecimal digits, the text (R57). -/
def listingCommand (t : Nat) (w : CmdWord) (line : AsmLine) : List Char :=
  ['t', '='] ++ Nat.toDigits 10 t ++ [' ', ' '] ++ printWord w ++ [' ', ' '] ++ printLine line

/-- The value of a hexadecimal digit, either case (log entry 7). -/
def hexDigit? (c : Char) : Option Nat :=
  let n := c.toNat
  if 48 ≤ n ∧ n ≤ 57 then some (n - 48)
  else if 65 ≤ n ∧ n ≤ 70 then some (n - 55)
  else if 97 ≤ n ∧ n ≤ 102 then some (n - 87)
  else none

/-- The value of a decimal digit. -/
def decDigit? (c : Char) : Option Nat :=
  if 48 ≤ c.toNat ∧ c.toNat ≤ 57 then some (c.toNat - 48) else none

/-- The value of digits in a base, the most significant first. -/
def digitsValue (digit? : Char → Option Nat) (base : Nat) (cs : List Char) : Option Nat :=
  cs.foldl (fun acc c => acc.bind fun n => (digit? c).map (base * n + ·)) (some 0)

/-- A byte operand: `0xHH`, or a decimal number 0..255 (R57). -/
def parseByte (cs : List Char) : Option Byte :=
  match cs with
  | ['0', 'x', hi, lo] => (digitsValue hexDigit? 16 [hi, lo]).map (BitVec.ofNat 8)
  | [] => none
  | _ => (digitsValue decDigit? 10 cs).bind fun n => if operandInRange n then some (BitVec.ofNat 8 n) else none

/-- A command word: `0xNNN`, 0x000 to 0x3FF (R57). -/
def parseWord (cs : List Char) : Option CmdWord :=
  match cs with
  | ['0', 'x', d2, d1, d0] =>
    (digitsValue hexDigit? 16 [d2, d1, d0]).bind fun n => if wordExists n then some (BitVec.ofNat 10 n) else none
  | _ => none

/-- The tokens of a line. -/
inductive AsmToken where
  | text (cs : List Char)
  | comma
  | opening
  | closing
deriving DecidableEq, Repr

/-- The token of the characters gathered so far, last one first. -/
def gathered : List Char → List AsmToken
  | [] => []
  | cs => [.text cs.reverse]

/-- Cut a line into tokens; a comment starts with a semicolon and runs to the end of the line (R57). -/
def tokenize : List Char → List Char → List AsmToken
  | soFar, [] => gathered soFar
  | soFar, c :: rest =>
    if c = ';' then gathered soFar
    else if c = ' ' ∨ c = '\t' then gathered soFar ++ tokenize [] rest
    else if c = ',' then gathered soFar ++ .comma :: tokenize [] rest
    else if c = '[' then gathered soFar ++ .opening :: tokenize [] rest
    else if c = ']' then gathered soFar ++ .closing :: tokenize [] rest
    else tokenize (c :: soFar) rest

/-- The bytes of a CALC after its first, each behind a comma, up to the closing bracket. -/
def parseMoreBytes : List AsmToken → Option (List Byte)
  | [.closing] => some []
  | .comma :: .text b :: rest =>
    (parseByte b).bind fun v => (parseMoreBytes rest).map (v :: ·)
  | _ => none

/-- The bytes of a CALC after its opening bracket (R59). -/
def parseBytes : List AsmToken → Option (List Byte)
  | [.closing] => some []
  | .text b :: rest => (parseByte b).bind fun v => (parseMoreBytes rest).map (v :: ·)
  | _ => none

/-- Read one line (R57, R59); mnemonics are upper case. -/
def parseLine (cs : List Char) : Option AsmLine :=
  match tokenize [] cs with
  | [] => some .empty
  | [.text ['N', 'O', 'P']] => some .nop
  | [.text ['I', 'N', 'I', 'T']] => some .init
  | [.text ['R', 'E', 'S', 'E', 'T']] => some .reset
  | [.text ['C', 'A', 'L', 'C', 'N', 'U', 'L', 'L']] => some .calcNull
  | [.text ['U', 'P', 'D'], .text b] => (parseByte b).map .upd
  | [.text ['L', 'O', 'A', 'D'], .text v] => (parseByte v).map .load
  | [.text ['.', 'w', 'o', 'r', 'd'], .text w] => (parseWord w).map .word
  | [.text ['U', 'P', 'D', 'A', 'T', 'E'], .text c, .comma, .text b] =>
    (parseByte c).bind fun c => (parseByte b).map (.update c)
  | .text ['C', 'A', 'L', 'C'] :: .opening :: rest => (parseBytes rest).map .calcOf
  | _ => none

end Sys2Proof.Machine
end

