-- ==== Sys2Proof/Safety.lean ====
section
/-! DEFINITION. Runs (R134) and what is safe to rely on: the CORE never stops (R80), so the one thing a claim may have to
assume is that `acc` is defined (U1 of spec/93_implementation_defined.md, R124). -/

namespace Sys2Proof.Machine

/-- The premise U1 names: a reset, INIT or LOAD has occurred, so `acc` holds a value (R86). -/
abbrev AccDefined (s : State) : Prop := s.acc ≠ none

/-- The machine once the host has decided what it presents next: `es`, then whatever it had in mind before. -/
def presenting (es : List Edge) (s : State) : State := { s with edges := es ++ s.edges }

/-- A run: the edges `es`, one step each, applied from `s` (R134). -/
def runEdges (es : List Edge) (s : State) : Host.Outcome State Fault Refusal :=
  Host.Core.run Sys2Proof.core es.length (presenting es s)

end Sys2Proof.Machine
end

