-- ==== Sys2Proof/Certificates/Slice0/Obligations.lean ====
section
/-! DEFINITION. The statements for the provers. `runEdges es s` is the run of the edges `es` from `s`; it ends with the
host's later edges and the draw counter as they were, so an equation with `.next { s with acc := … }` is also the frame
of the run. -/

open Sys2Proof Sys2Proof.Machine

/-! ### The commands -/

/-- R81. NOP, in each of its 256 words, changes nothing at all, `UNDEF` included, and nor does any number of them. -/
def Obligations.NopHoldsEverything : Prop :=
  (∀ d : Byte, decode (cmdWord 0b00#2 d) = .nop) ∧ encode .nop = 0x000#10 ∧
  (∀ s : State, exec .nop s = .next s) ∧
  (∀ (ds : List Byte) (s : State), runEdges (ds.map fun d => Edge.command (cmdWord 0b00#2 d)) s = .next s)

/-- R82. INIT, in each of its 256 words, gives 0x00 from any content, `UNDEF` included, and changes nothing else; after a
reset edge or an INIT it changes nothing further. -/
def Obligations.InitSeedsFromAnyContent : Prop :=
  (∀ d : Byte, decode (cmdWord 0b01#2 d) = .init) ∧ encode .init = 0x100#10 ∧
  (∀ s : State, exec .init s = .next { s with acc := some 0x00#8 }) ∧
  (∀ (s : State) (d : Byte) (w : CmdWord),
    runEdges [Edge.command (cmdWord 0b01#2 d), Edge.command (cmdWord 0b01#2 d)] s
      = runEdges [Edge.command (cmdWord 0b01#2 d)] s ∧
    runEdges [Edge.reset w, Edge.command (cmdWord 0b01#2 d)] s = runEdges [Edge.reset w] s)

/-- R83, R86: the word `0x200 + d` is `UPD d`; it writes `T[acc XOR d]`, the CRC-8 remainder of `acc XOR d` (R31), and
nothing else, and leaves `UNDEF` as it is. -/
def Obligations.UpdFoldsOneByte : Prop :=
  (∀ d : Byte, decode (0x200#10 + d.setWidth 10) = .upd d ∧ encode (.upd d) = 0x200#10 + d.setWidth 10) ∧
  (∀ (d : Byte) (s : State), exec (.upd d) s = .next { s with acc := s.acc.map fun a => T (a ^^^ d) }) ∧
  (∀ (d : Byte) (s : State), exec (.upd d) s = .next { s with acc := s.acc.map fun a => crc8Byte (a ^^^ d) }) ∧
  (∀ (a : Byte) (s : State), s.acc = some a →
    exec (.upd a) s = .next { s with acc := some 0x00#8 } ∧
    exec (.upd 0x00#8) s = .next { s with acc := some (T a) })

/-- R84, R11: the word `0x300 + v` is `LOAD v`; it writes `v`, whichever of the 256 values it is, and nothing else;
`LOAD 0x00` is INIT. -/
def Obligations.LoadWritesAnyValue : Prop :=
  (∀ v : Byte, decode (0x300#10 + v.setWidth 10) = .load v ∧ encode (.load v) = 0x300#10 + v.setWidth 10) ∧
  (∀ (v : Byte) (s : State), exec (.load v) s = .next { s with acc := some v }) ∧
  (∀ s : State, exec (.load 0x00#8) s = exec .init s)

/-- R86. The commands and reset on an accumulator nothing has written; and a defined accumulator stays defined in every
run. -/
def Obligations.CommandsOnUnwrittenAcc : Prop :=
  (∀ s : State, s.acc = none →
    exec .nop s = .next s ∧
    (∀ d : Byte, exec (.upd d) s = .next s) ∧
    exec .init s = .next { s with acc := some 0x00#8 } ∧
    (∀ v : Byte, exec (.load v) s = .next { s with acc := some v }) ∧
    (∀ w : CmdWord, runEdges [Edge.reset w] s = .next { s with acc := some 0x00#8 })) ∧
  (∀ (es : List Edge) (s : State), AccDefined s → ∃ t : State, runEdges es s = .next t ∧ AccDefined t)

/-- R83 with R32: a zero byte leaves `acc` as it is exactly at 0x00 and at 0xFD. R83 says in passing that UPD 0x00 "is
not a no-op unless `acc = 0x00`"; its own pseudocode and the table give `T[0xFD] = 0xFD` (log entry 8). -/
def Obligations.ZeroByteFixedPoints : Prop :=
  ∀ (a : Byte) (s : State), s.acc = some a → (exec (.upd 0x00#8) s = .next s ↔ a = 0x00#8 ∨ a = 0xFD#8)

/-! ### The step -/

/-- What a step adds around `exec`: the edge is sampled, and with `rst = 0` the word on its ports is decoded and executed
(R50, R80; that later edges stand in a list is the model's, log entry 3). -/
def Obligations.StepRunsDecodedCommand : Prop :=
  ∀ (s : State) (e : Edge) (rest : List Edge), s.edges = e :: rest → e.rst = false →
    step s = exec (decode (cmdWord e.op e.din)) { s with edges := rest }

/-- R103. When reset and a command coincide the edge writes 0x00 and the command is not executed; nor is it deferred: the
next edge runs its own command, on 0x00. Without reset exactly one command is executed. -/
def Obligations.ResetWinsOverCommand : Prop :=
  (∀ (s : State) (e : Edge) (rest : List Edge), s.edges = e :: rest → e.rst = true →
    step s = .next { s with acc := some 0x00#8, edges := rest }) ∧
  (∀ (s : State) (w v : CmdWord),
    runEdges [Edge.reset w, Edge.command v] s = exec (decode v) { s with acc := some 0x00#8 }) ∧
  (∀ (s : State) (v : CmdWord), runEdges [Edge.command v] s = exec (decode v) s)

/-- R80, R73: a step follows the pseudocode, with the mux written out. -/
def Obligations.StepFollowsPseudocode : Prop :=
  (∀ (s : State) (e : Edge) (rest : List Edge), s.edges = e :: rest →
    step s = .next { s with
      acc := if e.rst then some 0x00#8 else nextAcc e.op s.acc e.din
      edges := rest }) ∧
  (∀ (acc : Option Byte) (din : Byte),
    nextAcc 0b00#2 acc din = acc ∧
    nextAcc 0b01#2 acc din = some 0x00#8 ∧
    nextAcc 0b10#2 acc din = acc.map (fun a => T (a ^^^ din)) ∧
    nextAcc 0b11#2 acc din = some din) ∧
  (∀ (op : OpCode) (acc : Option Byte) (din : Byte),
    nextAcc op acc din = none ↔ acc = none ∧ (op = 0b00#2 ∨ op = 0b10#2))

/-- R80, R100: no state and no input stops the machine, so every run completes; each step takes one edge, if there is one,
and never touches the draw counter. That a step without an edge changes nothing is the model's choice (log entry 3). -/
def Obligations.EveryRunCompletes : Prop :=
  (∀ (n : Nat) (s : State), ∃ t : State,
    Host.Core.run Sys2Proof.core n s = .next t ∧ t.edges = s.edges.drop n ∧ t.draws = s.draws) ∧
  (∀ s : State, s.edges = [] → step s = .next s)

/-- R23, R44: what follows depends on the past only through `acc`: two machines with the same `acc` that are given the
same edges end with the same `acc`, however they came there. -/
def Obligations.FutureDependsOnAccAlone : Prop :=
  ∀ (es : List Edge) (s₁ s₂ : State), s₁.acc = s₂.acc →
    ∃ t₁ t₂ : State, runEdges es s₁ = .next t₁ ∧ runEdges es s₂ = .next t₂ ∧ t₁.acc = t₂.acc

/-- R77, R75: the sub-blocks, wired as R77 says, compute the step: `acc_n` is the next `acc`, `rom_a` is `acc XOR din` and
`rom_q` is `T[rom_a]` whatever `op` and `rst` are, the mux takes its UPD arm from `rom_q`, and `crc` is `acc`. -/
def Obligations.SubBlocksComputeStep : Prop :=
  ∀ (s : State) (e : Edge) (rest : List Edge), s.edges = e :: rest →
    step s = .next { s with acc := (nets s.acc e).accN, edges := rest } ∧
    (nets s.acc e).romA = s.acc.map (fun a => a ^^^ e.din) ∧
    (nets s.acc e).romQ = (nets s.acc e).romA.map T ∧
    (nets s.acc e).accD = nextAcc e.op s.acc e.din ∧
    (e.op = 0b10#2 → (nets s.acc e).accD = (nets s.acc e).romQ) ∧
    (nets s.acc e).accN = (if e.rst then some 0x00#8 else (nets s.acc e).accD) ∧
    crc s = s.acc

/-! ### Reset, power-up, definedness -/

/-- The invariant (R86): once defined, `acc` stays defined, at every step from every state. -/
def Obligations.DefinedAccStaysDefined : Prop :=
  ∀ s t : State, step s = .next t → AccDefined s → AccDefined t

/-- R21, R22, R108: after reset `acc` is 0x00, so the invariant holds there; at power-up and after a loss of power it is
`UNDEF`. -/
def Obligations.ResetDefinesAcc : Prop :=
  State.reset.acc = some 0x00#8 ∧ AccDefined State.reset ∧
  State.powerUp.acc = none ∧ ∀ s : State, losePower s = { s with acc := none }

/-- R22, R86, R124: from `UNDEF`, a run leaves `UNDEF` exactly when none of its edges is a reset, an INIT or a LOAD. -/
def Obligations.UndefEndsAtFirstDefiningEdge : Prop :=
  ∀ (es : List Edge) (s : State), s.acc = none →
    ∃ t : State, runEdges es s = .next t ∧
      (t.acc = none ↔ ∀ e ∈ es, e.rst = false ∧ (e.op = 0b00#2 ∨ e.op = 0b10#2))

/-- R121. One reset edge is a complete reset: further reset edges change nothing, and the edges after it run normally from
0x00. -/
def Obligations.OneResetEdgeIsComplete : Prop :=
  ∀ (w : CmdWord) (ws : List CmdWord) (es : List Edge) (s : State),
    runEdges (Edge.reset w :: ws.map Edge.reset ++ es) s = runEdges es { s with acc := some 0x00#8 }

/-- R122. A reset edge, an INIT and a `LOAD 0x00` leave the identical state. -/
def Obligations.ResetInitLoadZeroAgree : Prop :=
  ∀ (s : State) (w : CmdWord),
    runEdges [Edge.reset w] s = .next { s with acc := some 0x00#8 } ∧
    runEdges [Edge.ofInstr .init] s = runEdges [Edge.reset w] s ∧
    runEdges [Edge.ofInstr (.load 0x00#8)] s = runEdges [Edge.reset w] s

/-- R14, R85, U1: the port shows `acc`, untouched, and no input reaches it before an edge; reading a defined value changes
nothing. While `acc` is `UNDEF` a read gets a free value, a fresh one each time (log entry 2). -/
def Obligations.CrcShowsAcc : Prop :=
  (∀ s : State, crc s = s.acc) ∧
  (∀ (s : State) (es : List Edge), crc (presenting es s) = crc s ∧ crc (present es s) = crc s) ∧
  (∀ (s : State) (v : Byte), s.acc = some v → readCrc s = (v, s)) ∧
  (∀ s : State, s.acc = none → ∃ v : Byte, readCrc s = (v, { s with draws := s.draws + 1 }))

/-! ### The table -/

/-- R71. The division step, and its eight bits. -/
def Obligations.DivStepShiftsAndSubtracts : Prop :=
  (∀ w : Byte, divStep w = if w.getLsbD 7 then (w <<< 1) ^^^ 0x07#8 else w <<< 1) ∧
  (∀ w : Byte,
    (divStep w).getLsbD 0 = w.getLsbD 7 ∧
    (divStep w).getLsbD 1 = (w.getLsbD 0 ^^ w.getLsbD 7) ∧
    (divStep w).getLsbD 2 = (w.getLsbD 1 ^^ w.getLsbD 7) ∧
    (divStep w).getLsbD 3 = w.getLsbD 2 ∧
    (divStep w).getLsbD 4 = w.getLsbD 3 ∧
    (divStep w).getLsbD 5 = w.getLsbD 4 ∧
    (divStep w).getLsbD 6 = w.getLsbD 5 ∧
    (divStep w).getLsbD 7 = w.getLsbD 6) ∧
  divStep 0x00#8 = 0x00#8 ∧ divStep 0x80#8 = 0x07#8 ∧ divStep 0x7F#8 = 0xFE#8 ∧ divStep 0xFF#8 = 0xF9#8

/-- R31. Every entry of the ROM is the result of eight division steps applied to its index. -/
def Obligations.TableIsDivisionRemainder : Prop :=
  (∀ i : Byte, T i = crc8Byte i) ∧
  (∀ i : Byte, crc8Byte i =
    divStep (divStep (divStep (divStep (divStep (divStep (divStep (divStep i)))))))) ∧
  T 0x00#8 = 0x00#8

/-- R37. The table maps 0 to 0, is linear, is a permutation, and has the eight one-bit images. -/
def Obligations.TableIsLinearPermutation : Prop :=
  T 0x00#8 = 0x00#8 ∧
  (∀ a b : Byte, T (a ^^^ b) = T a ^^^ T b) ∧
  Function.Bijective T ∧
  T 0x01#8 = 0x07#8 ∧ T 0x02#8 = 0x0E#8 ∧ T 0x04#8 = 0x1C#8 ∧ T 0x08#8 = 0x38#8 ∧
  T 0x10#8 = 0x70#8 ∧ T 0x20#8 = 0xE0#8 ∧ T 0x40#8 = 0xC7#8 ∧ T 0x80#8 = 0x89#8

/-- R36. The table is the network of exclusive-or gates, bit by bit. -/
def Obligations.TableIsXorNetwork : Prop :=
  ∀ a : Byte, T a = xorNetwork a ∧
    (T a).getLsbD 0 = (a.getLsbD 0 ^^ a.getLsbD 6 ^^ a.getLsbD 7) ∧
    (T a).getLsbD 1 = (a.getLsbD 0 ^^ a.getLsbD 1 ^^ a.getLsbD 6) ∧
    (T a).getLsbD 2 = (a.getLsbD 0 ^^ a.getLsbD 1 ^^ a.getLsbD 2 ^^ a.getLsbD 6) ∧
    (T a).getLsbD 3 = (a.getLsbD 1 ^^ a.getLsbD 2 ^^ a.getLsbD 3 ^^ a.getLsbD 7) ∧
    (T a).getLsbD 4 = (a.getLsbD 2 ^^ a.getLsbD 3 ^^ a.getLsbD 4) ∧
    (T a).getLsbD 5 = (a.getLsbD 3 ^^ a.getLsbD 4 ^^ a.getLsbD 5) ∧
    (T a).getLsbD 6 = (a.getLsbD 4 ^^ a.getLsbD 5 ^^ a.getLsbD 6) ∧
    (T a).getLsbD 7 = (a.getLsbD 5 ^^ a.getLsbD 6 ^^ a.getLsbD 7)

/-- R72. The byte update and its corner cases. -/
def Obligations.UpdateByteReadsTable : Prop :=
  (∀ c d : Byte, updateByte c d = T (c ^^^ d) ∧ updateByte c d = updateByte d c ∧ updateByte c d = T c ^^^ T d) ∧
  (∀ c : Byte, updateByte 0x00#8 c = T c ∧ updateByte c 0x00#8 = T c ∧ updateByte c c = 0x00#8) ∧
  updateByte 0x97#8 0x32#8 = 0x72#8

/-- R76. The division step, the table function and the table are linear; an error in the running value adds its table
entry; an UPD depends on the XOR of its two bytes; every value is reached from every `acc` by exactly one byte, the XOR
of `acc` and the value's inverse image. -/
def Obligations.UpdateLaws : Prop :=
  (∀ a b : Byte, divStep (a ^^^ b) = divStep a ^^^ divStep b ∧
    crc8Byte (a ^^^ b) = crc8Byte a ^^^ crc8Byte b ∧ T (a ^^^ b) = T a ^^^ T b) ∧
  (∀ c e d : Byte, updateByte (c ^^^ e) d = updateByte c d ^^^ T e) ∧
  (∀ a d : Byte, nextAcc 0b10#2 (some a) d = nextAcc 0b10#2 (some 0x00#8) (a ^^^ d)) ∧
  (∃ inv : Byte → Byte, (∀ v : Byte, T (inv v) = v ∧ inv (T v) = v) ∧
    ∀ a v d : Byte, updateByte a d = v ↔ d = a ^^^ inv v)

/-- R33, R35, R123: whatever has happened before, `INIT; UPD i` shows entry `i`; no command and no reset ever changes
it. -/
def Obligations.EveryEntryStaysObservable : Prop :=
  ∀ (before : List Edge) (i : Byte) (s : State),
    runEdges (before ++ edgesOf [.init, .upd i]) s = .next { s with acc := some (T i) }

/-! ### Encoding -/

/-- Decode and encode agree: every command is well formed and is read back from its canonical word, and from its bytes
whatever bytes follow (R53, R58; the byte form is the model's, log entry 5). -/
def Obligations.DecodeOfEncode : Prop :=
  ∀ i : Instr, i.wellFormed = true ∧ decode (encode i) = i ∧
    ∀ rest : List Byte, decodeBytes (encodeBytes i ++ rest) = .ok (i, rest)

/-- R54. NOP and INIT ignore `din`; encoding what a word decodes to clears the ignored byte and no other bit, and the
canonical word does what the word does. -/
def Obligations.CanonicalWords : Prop :=
  (∀ d : Byte, decode (cmdWord 0b00#2 d) = .nop ∧ decode (cmdWord 0b01#2 d) = .init) ∧
  encode .nop = 0x000#10 ∧ encode .init = 0x100#10 ∧
  (∀ w : CmdWord, encode (decode w) = if w.getLsbD 9 then w else w &&& 0x300#10) ∧
  (∀ (w : CmdWord) (s : State),
    runEdges [Edge.command w] s = runEdges [Edge.command (encode (decode w))] s)

/-- R53, R55. Exactly one row of the opcode map selects each of the 1024 words, decoding gives that row's command, and the
word has the effect R53 gives the row. -/
def Obligations.EveryWordHasItsRowsEffect : Prop :=
  (∀ w : CmdWord, (opcodeTable.filter fun r => w &&& r.mask = r.pattern).map (·.mnemonic) = [(decode w).mnemonic]) ∧
  (∀ (w : CmdWord) (s : State),
    (w &&& 0x300#10 = 0x000#10 → runEdges [Edge.command w] s = .next s) ∧
    (w &&& 0x300#10 = 0x100#10 → runEdges [Edge.command w] s = .next { s with acc := some 0x00#8 }) ∧
    (w &&& 0x300#10 = 0x200#10 →
      runEdges [Edge.command w] s = .next { s with acc := s.acc.map fun a => T (a ^^^ w.setWidth 8) }) ∧
    (w &&& 0x300#10 = 0x300#10 → runEdges [Edge.command w] s = .next { s with acc := some (w.setWidth 8) }))

/-- Words of spec/95_test_vectors.md 2.4, read by the decoder. -/
def Obligations.DecodedWordsOfTheSpec : Prop :=
  decode 0b0000000000#10 = .nop ∧ decode 0b0011111111#10 = .nop ∧
  decode 0b0100000000#10 = .init ∧ decode 0b0101111110#10 = .init ∧
  decode 0b1000110001#10 = .upd 0x31#8 ∧ decode 0b1011111111#10 = .upd 0xFF#8 ∧
  decode 0b1110010111#10 = .load 0x97#8 ∧ decode 0b1100000000#10 = .load 0x00#8

/-- The table's numbering reads every word as the decoder does, and a word placed where the step samples its next command
is the one it runs (R50, R80; the placing is the model's, log entry 4). -/
def Obligations.PlacedWordIsExecuted : Prop :=
  ∀ (w : CmdWord) (s : State),
    decodeTableWord 16 w.toNat = some (decode w) ∧
    step (s.withFetchWord 16 w.toNat) = exec (decode w) { s with edges := s.edges.tail }

/-- R58. Each form's word; the disassembler; reassembling a disassembled word gives the canonical word, which has the same
effect. -/
def Obligations.AssembleOfDisassemble : Prop :=
  assemble .nop = [Edge.command 0x000#10] ∧ assemble .init = [Edge.command 0x100#10] ∧
  (∀ b : Byte, assemble (.upd b) = [Edge.command (0x200#10 + b.setWidth 10)]) ∧
  (∀ v : Byte, assemble (.load v) = [Edge.command (0x300#10 + v.setWidth 10)]) ∧
  (∀ d : Byte, disassemble (cmdWord 0b00#2 d) = .nop ∧ disassemble (cmdWord 0b01#2 d) = .init ∧
    disassemble (cmdWord 0b10#2 d) = .upd d ∧ disassemble (cmdWord 0b11#2 d) = .load d) ∧
  (∀ w : CmdWord, assemble (disassemble w) = [Edge.command (encode (decode w))]) ∧
  (∀ (w : CmdWord) (s : State), runEdges (assemble (disassemble w)) s = runEdges [Edge.command w] s)

/-- The assembler reads back every line as it is written out (R57, R59). -/
def Obligations.AssemblerTextReadsBack : Prop :=
  ∀ line : AsmLine, parseLine (printLine line) = some line

/-! ### The operations -/

/-- R99. The fold, its equations and its consequences. -/
def Obligations.FoldLaws : Prop :=
  (∀ c : Byte, fold c [] = c) ∧
  (∀ (c b : Byte) (rest : List Byte), fold c ([b] ++ rest) = fold (updateByte c b) rest) ∧
  (∀ message : List Byte, crc8 message = fold 0x00#8 message) ∧
  (∀ (c : Byte) (B C : List Byte), fold c (B ++ C) = fold (fold c B) C) ∧
  crc8 [] = 0x00#8 ∧ ∀ b : Byte, crc8 [b] = T b

/-- R125. The bytes of a message are folded onto whatever `acc` held. -/
def Obligations.UnseededMessageFoldsOntoAcc : Prop :=
  ∀ (message : List Byte) (c : Byte) (s : State), s.acc = some c →
    runEdges (edgesOf (updates message)) s = .next { s with acc := some (fold c message) }

/-- R92. CALC from any state, `UNDEF` included, ends with the CRC of the message, in n + 1 edges; the INIT may be a reset
edge, and may be dropped when `acc` is 0x00. -/
def Obligations.CalcComputesCrc : Prop :=
  ∀ (message : List Byte) (s : State),
    (edgesOf (expandCalc message)).length = message.length + 1 ∧
    runEdges (edgesOf (expandCalc message)) s = .next { s with acc := some (crc8 message) } ∧
    (∀ w : CmdWord, runEdges (Edge.reset w :: edgesOf (updates message)) s
      = .next { s with acc := some (crc8 message) }) ∧
    (s.acc = some 0x00#8 →
      runEdges (edgesOf (updates message)) s = .next { s with acc := some (crc8 message) })

/-- R94, R93. The empty message and the absent buffer are the same command sequence, INIT alone, and leave 0x00. -/
def Obligations.EmptyAndNullCalc : Prop :=
  expandCalc [] = [.init] ∧ expandCalcNull = [.init] ∧
  ∀ s : State, runEdges (edgesOf (expandCalc [])) s = .next { s with acc := some 0x00#8 } ∧
    runEdges (edgesOf expandCalcNull) s = .next { s with acc := some 0x00#8 }

/-- R90. UPDATE ends with `T[c XOR b]` in two edges, or in one when `acc` already holds `c`. -/
def Obligations.UpdateGivesTableEntry : Prop :=
  ∀ (c b : Byte) (s : State),
    (edgesOf (expandUpdate c b)).length = 2 ∧ (edgesOf (expandUpdateHeld b)).length = 1 ∧
    runEdges (edgesOf (expandUpdate c b)) s = .next { s with acc := some (T (c ^^^ b)) } ∧
    (s.acc = some c → runEdges (edgesOf (expandUpdateHeld b)) s = .next { s with acc := some (T (c ^^^ b)) })

/-- R96. Streaming and bulk agree for every message, the empty one included: seeded as R91 seeds, one fully expanded
`Update` per byte ends in the state CALC ends in. Where there is a byte the first LOAD seeds, so the INIT may go; where
there is none the streaming host issues no command and holds the initial value, which is the empty message's CRC. The
source's instance gives 0xC0 on both sides. -/
def Obligations.StreamingAgreesWithBulk : Prop :=
  (∀ (message : List Byte) (s : State),
    runEdges (edgesOf (.init :: expandStreaming 0x00#8 message)) s = .next { s with acc := some (crc8 message) } ∧
    runEdges (edgesOf (expandCalc message)) s = .next { s with acc := some (crc8 message) }) ∧
  (∀ (b : Byte) (rest : List Byte) (s : State),
    runEdges (edgesOf (expandStreaming 0x00#8 (b :: rest))) s = runEdges (edgesOf (expandCalc (b :: rest))) s) ∧
  expandStreaming 0x00#8 [] = [] ∧ crc8 [] = 0x00#8 ∧
  (∀ s : State,
    runEdges (edgesOf (expandStreaming 0x00#8 [0x31#8, 0x32#8, 0x33#8])) s = .next { s with acc := some 0xC0#8 } ∧
    runEdges (edgesOf (expandCalc [0x31#8, 0x32#8, 0x33#8])) s = .next { s with acc := some 0xC0#8 })

/-- R91, R81: taking the NOPs out of a run, wherever they stand, does not change where it ends. -/
def Obligations.NopsDoNotMatter : Prop :=
  ∀ (es : List Edge) (s : State),
    runEdges (es.filter fun e => e.rst || e.op != 0b00#2) s = runEdges es s

/-- R98. A message suspended after `first`, whose value the host keeps and loads again, ends as if nothing had come
between, whatever came. -/
def Obligations.SuspendedMessageResumes : Prop :=
  ∀ (first second : List Byte) (between : List Edge) (s : State),
    runEdges (edgesOf (expandCalc first) ++ between ++ edgesOf (.load (crc8 first) :: updates second)) s
      = .next { s with acc := some (crc8 (first ++ second)) }

/-- R97. The result of a sequence that begins with a reset, an INIT or a LOAD depends on that sequence alone. -/
def Obligations.DefiningEdgeErasesHistory : Prop :=
  ∀ (e : Edge) (es : List Edge), e.rst = true ∨ e.op = 0b01#2 ∨ e.op = 0b11#2 →
    ∃ result : Option Byte, ∀ s : State, runEdges (e :: es) s = .next { s with acc := result }

/-- spec/95_test_vectors.md 2.5: a message followed by its own CRC has the CRC 0x00. -/
def Obligations.AppendedCrcGivesZero : Prop :=
  ∀ (message : List Byte) (s : State),
    runEdges (edgesOf (expandCalc (message ++ [crc8 message]))) s = .next { s with acc := some 0x00#8 }

/-- From R75, R76: two messages that differ in exactly one byte have different CRCs. -/
def Obligations.OneChangedByteIsDetected : Prop :=
  ∀ (A C : List Byte) (b c : Byte), b ≠ c → crc8 (A ++ b :: C) ≠ crc8 (A ++ c :: C)

/-- From R37 (b): the CRC of the XOR of two messages of one length is the XOR of their CRCs. -/
def Obligations.CrcIsLinear : Prop :=
  ∀ A B : List Byte, A.length = B.length → crc8 (List.zipWith (· ^^^ ·) A B) = crc8 A ^^^ crc8 B
end

