-- ==== Sys2Proof/Laws/Encoding.lean ====
section
/-! SUPPORT. The fields of a command word (R50 to R52), and the decoder by the op field (R53). -/

namespace Sys2Proof

@[simp] theorem cmdOp_cmdWord (op : OpCode) (din : Byte) : cmdOp (cmdWord op din) = op := by
  ext i hi
  simp only [cmdOp, cmdWord, BitVec.getElem_extractLsb', BitVec.getLsbD_append]
  rw [if_neg (by omega), Nat.add_sub_cancel_left, BitVec.getLsbD_eq_getElem hi]

@[simp] theorem cmdDin_cmdWord (op : OpCode) (din : Byte) : cmdDin (cmdWord op din) = din := by
  ext i hi
  simp only [cmdDin, cmdWord, BitVec.getElem_extractLsb', BitVec.getLsbD_append, Nat.zero_add]
  rw [if_pos hi, BitVec.getLsbD_eq_getElem hi]

/-- A word is its two fields. -/
@[simp] theorem cmdWord_fields (w : CmdWord) : cmdWord (cmdOp w) (cmdDin w) = w := by
  apply BitVec.eq_of_getLsbD_eq
  intro i hi
  rw [cmdWord, BitVec.getLsbD_append, cmdOp, cmdDin, BitVec.getLsbD_extractLsb', BitVec.getLsbD_extractLsb']
  split
  · simp [*]
  · rw [Nat.add_sub_cancel' (by omega), decide_eq_true (by omega), Bool.true_and]

/-- An op field that is none of the first three codes is the fourth (R53: the four codes exhaust the two bits). -/
theorem op_exhausted (op : OpCode) (h₀ : op ≠ Config.opNop) (h₁ : op ≠ Config.opInit) (h₂ : op ≠ Config.opUpd) :
    op = Config.opLoad := by
  revert op
  decide

/-- Everything the decoder can answer, by the op field (R53). -/
theorem decode_cases (w : CmdWord) :
    (cmdOp w = Config.opNop ∧ decode w = .nop) ∨
    (cmdOp w = Config.opInit ∧ decode w = .init) ∨
    (cmdOp w = Config.opUpd ∧ decode w = .upd (cmdDin w)) ∨
    (cmdOp w = Config.opLoad ∧ decode w = .load (cmdDin w)) := by
  unfold decode
  split
  · exact .inl ⟨‹_›, rfl⟩
  · split
    · exact .inr (.inl ⟨‹_›, rfl⟩)
    · split
      · exact .inr (.inr (.inl ⟨‹_›, rfl⟩))
      · exact .inr (.inr (.inr ⟨op_exhausted _ ‹_› ‹_› ‹_›, rfl⟩))

end Sys2Proof
end

