-- ==== Sys2Proof/Laws/PerInstr.lean ====
section
/-! SUPPORT. Statements made for each command as syntax, one lemma per constructor of `Instr`. -/

namespace Sys2Proof.Laws.Fields

/-- The canonical word of a command holds its opcode and its operand, each in its own field (R50 to R54). -/
def Statement (i : Instr) : Prop := cmdOp (encode i) = i.opcode ∧ cmdDin (encode i) = i.operand

theorem nop : Statement .nop := ⟨cmdOp_cmdWord _ _, cmdDin_cmdWord _ _⟩
theorem init : Statement .init := ⟨cmdOp_cmdWord _ _, cmdDin_cmdWord _ _⟩
theorem upd (din : Byte) : Statement (.upd din) := ⟨cmdOp_cmdWord _ _, cmdDin_cmdWord _ _⟩
theorem load (din : Byte) : Statement (.load din) := ⟨cmdOp_cmdWord _ _, cmdDin_cmdWord _ _⟩

end Sys2Proof.Laws.Fields
end

