-- ==== Sys2Proof/Laws/State.lean ====
section
/-! SUPPORT. One lemma for each field of each update of the state, and one for each shared operation, so that no later
proof unfolds a record update. -/

namespace Sys2Proof.Machine

variable (s : State) (v : Option Byte) (es : List Edge)

@[simp] theorem writeAcc_acc : (writeAcc v s).acc = v := rfl
@[simp] theorem writeAcc_edges : (writeAcc v s).edges = s.edges := rfl
@[simp] theorem writeAcc_draws : (writeAcc v s).draws = s.draws := rfl
@[simp] theorem writeAcc_writeAcc (u : Option Byte) : writeAcc u (writeAcc v s) = writeAcc u s := rfl
@[simp] theorem writeAcc_readAcc : writeAcc (readAcc s) s = s := rfl
@[simp] theorem readAcc_writeAcc : readAcc (writeAcc v s) = v := rfl

@[simp] theorem resetAcc_acc : (resetAcc s).acc = some Config.initValue := rfl
@[simp] theorem resetAcc_edges : (resetAcc s).edges = s.edges := rfl
@[simp] theorem resetAcc_draws : (resetAcc s).draws = s.draws := rfl

@[simp] theorem losePower_acc : (losePower s).acc = none := rfl
@[simp] theorem losePower_edges : (losePower s).edges = s.edges := rfl
@[simp] theorem losePower_draws : (losePower s).draws = s.draws := rfl

@[simp] theorem noEdge_eq : noEdge s = s := rfl

@[simp] theorem present_acc : (present es s).acc = s.acc := rfl
@[simp] theorem present_edges : (present es s).edges = s.edges ++ es := rfl
@[simp] theorem present_draws : (present es s).draws = s.draws := rfl

@[simp] theorem readCrc_acc : (readCrc s).2.acc = s.acc := by
  unfold readCrc
  split <;> rfl

@[simp] theorem readCrc_edges : (readCrc s).2.edges = s.edges := by
  unfold readCrc
  split <;> rfl

/-- Each read of an undefined port advances the draw counter, so that no two reads share a draw (U1). -/
theorem readCrc_draws : (readCrc s).2.draws = if s.acc = none then s.draws + 1 else s.draws := by
  cases h : s.acc <;> simp [readCrc, crc, readAcc, h]

theorem takeEdge_nil (h : s.edges = []) : takeEdge s = none := by simp [takeEdge, h]

theorem takeEdge_cons {e : Edge} {rest : List Edge} (h : s.edges = e :: rest) :
    takeEdge s = some (e, { s with edges := rest }) := by simp [takeEdge, h]

/-- Everything `takeEdge` can do. -/
theorem takeEdge_cases :
    (takeEdge s = none ∧ s.edges = []) ∨
    ∃ e rest, s.edges = e :: rest ∧ takeEdge s = some (e, { s with edges := rest }) := by
  cases h : s.edges with
  | nil => exact .inl ⟨takeEdge_nil s h, rfl⟩
  | cons e rest => exact .inr ⟨e, rest, rfl, takeEdge_cons s h⟩

end Sys2Proof.Machine
end

