-- ==== Sys2Proof/Laws/Step.lean ====
section
/-! SUPPORT. The meanings as state updates, what a step can do, and runs. -/

namespace Sys2Proof.Machine

@[simp] theorem edge_command_word (w : CmdWord) : (Edge.command w).word = w := cmdWord_fields w
@[simp] theorem edge_command_rst (w : CmdWord) : (Edge.command w).rst = false := rfl
@[simp] theorem edge_reset_rst (w : CmdWord) : (Edge.reset w).rst = true := rfl

/-- A meaning writes `acc` and nothing else, and always answers a next state. -/
theorem exec_writes_acc (i : Instr) (s : State) : ∃ v, exec i s = .next (writeAcc v s) := by
  cases i with
  | nop => exact ⟨_, rfl⟩
  | init => exact ⟨_, rfl⟩
  | upd din => exact ⟨_, rfl⟩
  | load din => exact ⟨_, rfl⟩

/-- Everything a step can do: nothing, a reset, or one command. -/
theorem step_cases (s : State) :
    (s.edges = [] ∧ step s = .next s) ∨
    ∃ e rest, s.edges = e :: rest ∧
      ((e.rst = true ∧ step s = .next (resetAcc { s with edges := rest })) ∨
        (e.rst = false ∧ step s = exec (decode e.word) { s with edges := rest })) := by
  unfold step
  obtain ⟨hnone, hnil⟩ | ⟨e, rest, hcons, hsome⟩ := takeEdge_cases s
  · exact .inl ⟨hnil, by rw [hnone, noEdge_eq]⟩
  · refine .inr ⟨e, rest, hcons, ?_⟩
    rw [hsome]
    cases h : e.rst with
    | true => exact .inl ⟨rfl, by simp [h]⟩
    | false => exact .inr ⟨rfl, by simp [h]⟩

/-- The first step of a run, where it answers a next state. -/
theorem run_succ_of_next {n : Nat} {s t : State} (h : step s = .next t) :
    Host.Core.run Sys2Proof.core (n + 1) s = Host.Core.run Sys2Proof.core n t := by
  have hs : Sys2Proof.core.step s = .next t := h
  simp only [Host.Core.run, hs]

end Sys2Proof.Machine
end

