-- ==== Sys2Proof/Laws/Run.lean ====
section
/-! SUPPORT. What a run does, said once: the accumulator follows R80's pseudocode edge by edge, and nothing else
changes. -/

namespace Sys2Proof.Machine

/-- The meanings and the feedback mux are two readings of one command word (R73, R81 to R84). -/
theorem exec_decode_word (e : Edge) (s : State) :
    exec (decode e.word) s = .next (writeAcc (nextAcc e.op s.acc e.din) s) := by
  have hop : cmdOp e.word = e.op := cmdOp_cmdWord _ _
  have hdin : cmdDin e.word = e.din := cmdDin_cmdWord _ _
  unfold decode nextAcc
  rw [hop, hdin]
  split_ifs <;> rfl

/-- A step that has an edge writes `acc` as `edgeAcc` says and takes the edge. -/
theorem step_takes_edge {s : State} {e : Edge} {rest : List Edge} (h : s.edges = e :: rest) :
    step s = .next { acc := edgeAcc s.acc e, edges := rest, draws := s.draws } := by
  obtain ⟨hnil, -⟩ | ⟨e', rest', hcons, hstep⟩ := step_cases s
  · simp [hnil] at h
  · obtain ⟨rfl, rfl⟩ := List.cons.inj (hcons.symm.trans h)
    obtain ⟨hrst, hstep⟩ | ⟨hrst, hstep⟩ := hstep
    · rw [hstep]
      simp [edgeAcc, hrst, resetAcc, writeAcc]
    · rw [hstep, exec_decode_word]
      simp [edgeAcc, hrst, writeAcc]

/-- A run ends with the accumulator that R80's pseudocode gives, the later edges and the draws as they were. -/
theorem runEdges_eq_accAfter (es : List Edge) (s : State) :
    runEdges es s = .next { acc := accAfter s.acc es, edges := s.edges, draws := s.draws } := by
  induction es generalizing s with
  | nil => rfl
  | cons e es ih =>
    have hstep : step (presenting (e :: es) s) = _ := step_takes_edge (rest := es ++ s.edges) rfl
    rw [runEdges, List.length_cons, run_succ_of_next hstep]
    exact ih { acc := edgeAcc s.acc e, edges := s.edges, draws := s.draws }

theorem accAfter_cons (acc : Option Byte) (e : Edge) (es : List Edge) :
    accAfter acc (e :: es) = accAfter (edgeAcc acc e) es := rfl

theorem accAfter_append (acc : Option Byte) (es fs : List Edge) :
    accAfter acc (es ++ fs) = accAfter (accAfter acc es) fs := List.foldl_append

theorem edgeAcc_reset (acc : Option Byte) (w : CmdWord) : edgeAcc acc (Edge.reset w) = some Config.initValue := rfl

theorem edgeAcc_nop (acc : Option Byte) : edgeAcc acc (Edge.ofInstr .nop) = acc := rfl

theorem edgeAcc_init (acc : Option Byte) : edgeAcc acc (Edge.ofInstr .init) = some Config.initValue := rfl

theorem edgeAcc_upd (acc : Option Byte) (din : Byte) : edgeAcc acc (Edge.ofInstr (.upd din)) = updateAcc acc din := by
  simp [edgeAcc, Edge.ofInstr, Edge.command, encode, Instr.opcode, Instr.operand, nextAcc, Config.opNop, Config.opInit,
    Config.opUpd]

theorem edgeAcc_load (acc : Option Byte) (din : Byte) : edgeAcc acc (Edge.ofInstr (.load din)) = some din := by
  simp [edgeAcc, Edge.ofInstr, Edge.command, encode, Instr.opcode, Instr.operand, nextAcc, Config.opNop, Config.opInit,
    Config.opUpd, Config.opLoad]

end Sys2Proof.Machine
end

