-- ==== Sys2Proof/Machine/Flags.lean ====
section
/-! DEFINITION. The CORE has no status flag, condition code or predicate (R16), no command writes one (R81 to R84), and
no operation has a carry or an overflow to report (R74): there is no flag computation to define. -/
end

