-- ==== Sys2Proof/Tests/Slice0.lean ====
section
/-! SUPPORT. The model's own tests, one step each, their expected results taken from the spec, and a witness for every
statement of Certificates/Slice0/Obligations.lean that has hypotheses. -/

namespace Sys2Proof.Tests

open Sys2Proof Sys2Proof.Machine

/-- A machine with the given accumulator, no edge to come and no value drawn. -/
def machine (acc : Option Byte) : State := { acc, edges := [], draws := 0 }

/-- What a step with the word `w` on the ports and `rst = 0` leaves in the accumulator; none for a stop. -/
def accOfStep (acc : Option Byte) (w : CmdWord) : Option (Option Byte) :=
  match step { machine acc with edges := [Edge.command w] } with
  | .next t => some t.acc
  | .fault _ => none
  | .refused _ => none

/-! ### Well-formedness: the two checks refuse what they should (R52, R57; 95_test_vectors.md 2.4) -/

theorem test_word_0x400_does_not_exist : wordExists 0x400 = false := by decide
theorem test_word_0x3ff_exists : wordExists 0x3FF = true := by decide
theorem test_operand_256_is_no_byte : operandInRange 256 = false := by decide
theorem test_operand_255_is_a_byte : operandInRange 255 = true := by decide
theorem test_wellFormed_load_0xff : (Instr.load 0xFF#8).wellFormed = true := by decide

/-! ### Decoding: words written out bit by bit (R53, R54; 95_test_vectors.md 2.4) -/

theorem test_decode_nop_stray_din : decode 0b0011111111#10 = .nop := by decide
theorem test_decode_init_stray_din : decode 0b0101111110#10 = .init := by decide
theorem test_decode_upd_0x31 : decode 0b1000110001#10 = .upd 0x31#8 := by decide
theorem test_decode_load_0x97 : decode 0b1110010111#10 = .load 0x97#8 := by decide
theorem test_encode_nop : encode .nop = 0b0000000000#10 := by decide
theorem test_encode_init : encode .init = 0b0100000000#10 := by decide
theorem test_encode_upd_0xff : encode (.upd 0xFF#8) = 0b1011111111#10 := by decide
theorem test_encode_load_200 : encode (.load 200#8) = 0b1111001000#10 := by decide
theorem test_table_word_upd_0x31 : decodeTableWord 16 0x231 = some (.upd 0x31#8) := by decide
theorem test_table_word_0x400 : decodeTableWord 16 0x400 = none := by decide
theorem test_bytes_of_upd_0x31 : decodeBytes [0x31#8, 0x02#8, 0xAA#8] = .ok (.upd 0x31#8, [0xAA#8]) := by decide
theorem test_bytes_bit_ten_set : decodeBytes [0x00#8, 0x04#8] = .error (.noSuchWord 0x400) := by decide
theorem test_bytes_truncated : decodeBytes [0x00#8] = .error .truncated := by decide

/-! ### The commands (95_test_vectors.md 2.3) -/

theorem test_nop_ignores_din : accOfStep (some 0x72#8) 0x0AB#10 = some (some 0x72#8) := by decide
theorem test_nop_on_undef : accOfStep none 0x000#10 = some none := by decide
theorem test_init_ignores_din : accOfStep (some 0xF4#8) 0x1FF#10 = some (some 0x00#8) := by decide
theorem test_init_on_undef : accOfStep none 0x100#10 = some (some 0x00#8) := by decide
theorem test_upd_second_byte_of_s6 : accOfStep (some 0x97#8) 0x232#10 = some (some 0x72#8) := by decide
theorem test_upd_on_undef : accOfStep none 0x2FF#10 = some none := by decide
theorem test_load_above_200 : accOfStep (some 0x12#8) 0x3C9#10 = some (some 0xC9#8) := by decide
theorem test_load_on_undef : accOfStep none 0x3A5#10 = some (some 0xA5#8) := by decide

/-- Reset over a command (95_test_vectors.md 2.6): 0x72 with `rst = 1` and the word 0x233. -/
theorem test_reset_wins_over_upd :
    step { machine (some 0x72#8) with edges := [Edge.reset 0x233#10] } = .next (machine (some 0x00#8)) := rfl

theorem test_placed_word_is_sampled :
    step (State.reset.withFetchWord 16 0x231) = .next { State.reset with acc := some 0x97#8 } := rfl

/-! ### The table (95_test_vectors.md 2.1, 2.2; R32) -/

theorem test_T_0x31 : T 0x31#8 = 0x97#8 := by decide
theorem test_T_0xff : T 0xFF#8 = 0xF3#8 := by decide
theorem test_crc8Byte_0x80 : crc8Byte 0x80#8 = 0x89#8 := by decide
theorem test_divStep_0x81 : divStep 0x81#8 = 0x05#8 := by decide
theorem test_network_0xa5 : xorNetwork 0xA5#8 = 0x72#8 := by decide
theorem test_rom_sum : (romContents.map BitVec.toNat).sum = 32640 := by decide +kernel

/-! ### The operations and the assembler (95_test_vectors.md 1, 2.5; R57) -/

theorem test_crc8_of_123456789 :
    crc8 [0x31#8, 0x32#8, 0x33#8, 0x34#8, 0x35#8, 0x36#8, 0x37#8, 0x38#8, 0x39#8] = 0xF4#8 := by decide

theorem test_fold_resumes : fold 0x97#8 [0x32#8, 0x33#8] = 0xC0#8 := by decide

theorem test_parse_decimal_operand : parseLine "LOAD 200 ; above 200".toList = some (.load 0xC8#8) := by decide
theorem test_parse_update : parseLine "UPDATE 0x97, 0x32".toList = some (.update 0x97#8 0x32#8) := by decide
theorem test_parse_operand_256 : parseLine "UPD 256".toList = none := by decide
theorem test_parse_word_0x400 : parseLine ".word 0x400".toList = none := by decide
theorem test_parse_lower_case_mnemonic : parseLine "nop".toList = none := by decide
theorem test_listing_line : listingCommand 3 0x231#10 (.upd 0x31#8) = "t=3  231  UPD 0x31".toList := by decide

/-! ### Witnesses: the hypotheses of each statement are met together -/

/-- UpdFoldsOneByte, ZeroByteFixedPoints, UnseededMessageFoldsOntoAcc, UpdateGivesTableEntry: `acc` holds a value. -/
theorem witness_acc_holds : (machine (some 0x97#8)).acc = some 0x97#8 := rfl

/-- CommandsOnUnwrittenAcc, UndefEndsAtFirstDefiningEdge, CrcShowsAcc: `acc` is `UNDEF`. -/
theorem witness_acc_undef : State.powerUp.acc = none := rfl

/-- CommandsOnUnwrittenAcc, DefinedAccStaysDefined: `acc` is defined and the step answers a next state. -/
theorem witness_defined_step : AccDefined { machine (some 0xFD#8) with edges := [Edge.command 0x200#10] } ∧
    step { machine (some 0xFD#8) with edges := [Edge.command 0x200#10] } = .next (machine (some 0xFD#8)) :=
  ⟨by decide, rfl⟩

/-- ZeroByteFixedPoints: the fixed point that R83's aside overlooks, and a value that is none. -/
theorem witness_zero_byte_fixed : accOfStep (some 0xFD#8) 0x200#10 = some (some 0xFD#8) := by decide

theorem witness_zero_byte_moves : accOfStep (some 0x01#8) 0x200#10 = some (some 0x07#8) := by decide

/-- StepRunsDecodedCommand, StepFollowsPseudocode, SubBlocksComputeStep: an edge with `rst = 0`. -/
theorem witness_command_edge : ∃ s : State, s.edges = [Edge.command 0x2A5#10, Edge.command 0x000#10] ∧
    (Edge.command 0x2A5#10).rst = false := ⟨{ machine none with edges := _ }, rfl, rfl⟩

/-- ResetWinsOverCommand, StepFollowsPseudocode: an edge with `rst = 1`. -/
theorem witness_reset_edge : ∃ s : State, s.edges = [Edge.reset 0x3FF#10] ∧ (Edge.reset 0x3FF#10).rst = true :=
  ⟨{ machine (some 0x72#8) with edges := _ }, rfl, rfl⟩

/-- EveryRunCompletes: no edge to come. -/
theorem witness_no_edge : State.reset.edges = [] ∧ step State.reset = .next State.reset := ⟨rfl, rfl⟩

/-- FutureDependsOnAccAlone: two different machines with one `acc`. -/
theorem witness_same_acc : ∃ s₁ s₂ : State, s₁ ≠ s₂ ∧ s₁.acc = s₂.acc :=
  ⟨machine (some 0x42#8), { machine (some 0x42#8) with draws := 5 }, by decide, rfl⟩

/-- EveryWordHasItsRowsEffect: the first and the last word of each row meet that row's premise and no other's. -/
theorem witness_row_boundaries :
    [0x000#10, 0x0FF#10, 0x100#10, 0x1FF#10, 0x200#10, 0x2FF#10, 0x300#10, 0x3FF#10].map (· &&& 0x300#10)
      = [0x000#10, 0x000#10, 0x100#10, 0x100#10, 0x200#10, 0x200#10, 0x300#10, 0x300#10] := by decide

/-- CalcComputesCrc: `acc` is 0x00, as reset leaves it. -/
theorem witness_acc_zero : State.reset.acc = some 0x00#8 := rfl

/-- DefiningEdgeErasesHistory: a reset edge, an INIT and a LOAD. -/
theorem witness_defining_edges : (Edge.reset 0x200#10).rst = true ∧ (Edge.command 0x17E#10).op = 0b01#2 ∧
    (Edge.command 0x3FF#10).op = 0b11#2 := by decide

/-- OneChangedByteIsDetected, CrcIsLinear. -/
theorem witness_messages : (0x00#8 : Byte) ≠ 0x80#8 ∧ [0x12#8, 0x34#8].length = [0x56#8, 0x78#8].length := by decide

end Sys2Proof.Tests
end

namespace Sys2Proof.Machine

/-! ### The feedback mux, one equation per op code (R73) -/

theorem nextAcc_nop (acc : Option Byte) (din : Byte) : nextAcc 0b00#2 acc din = acc := rfl

theorem nextAcc_init (acc : Option Byte) (din : Byte) : nextAcc 0b01#2 acc din = some Config.initValue := rfl

theorem nextAcc_upd (acc : Option Byte) (din : Byte) : nextAcc 0b10#2 acc din = updateAcc acc din := rfl

theorem nextAcc_load (acc : Option Byte) (din : Byte) : nextAcc 0b11#2 acc din = some din := rfl

/-- The four op codes exhaust the two bits of the field (R53). -/
theorem opCode_cases (op : OpCode) : op = 0b00#2 ∨ op = 0b01#2 ∨ op = 0b10#2 ∨ op = 0b11#2 := by
  decide +revert

/-! ### When the accumulator is `UNDEF` (R73, R86) -/

/-- A table entry is never `UNDEF`: the byte update only passes an `UNDEF` on (R86). -/
theorem updateAcc_eq_none_iff {acc : Option Byte} {din : Byte} : updateAcc acc din = none ↔ acc = none :=
  Option.map_eq_none_iff

theorem nextAcc_eq_none_iff {op : OpCode} {acc : Option Byte} {din : Byte} :
    nextAcc op acc din = none ↔ acc = none ∧ (op = 0b00#2 ∨ op = 0b10#2) := by
  obtain rfl | rfl | rfl | rfl := opCode_cases op
  · simp [nextAcc_nop]
  · simp [nextAcc_init]
  · simp [nextAcc_upd, updateAcc_eq_none_iff]
  · simp [nextAcc_load]

theorem edgeAcc_eq_none_iff {acc : Option Byte} {e : Edge} :
    edgeAcc acc e = none ↔ acc = none ∧ e.rst = false ∧ (e.op = 0b00#2 ∨ e.op = 0b10#2) := by
  cases hrst : e.rst with
  | true => simp [edgeAcc, hrst]
  | false => simp [edgeAcc, hrst, nextAcc_eq_none_iff]

/-- A run ends in `UNDEF` exactly when it began there and every edge passed it on; so a defined accumulator stays defined. -/
theorem accAfter_eq_none_iff {acc : Option Byte} {es : List Edge} :
    accAfter acc es = none ↔ acc = none ∧ ∀ e ∈ es, e.rst = false ∧ (e.op = 0b00#2 ∨ e.op = 0b10#2) := by
  induction es generalizing acc with
  | nil => simp [accAfter]
  | cons e es ih => rw [accAfter_cons, ih, edgeAcc_eq_none_iff, List.forall_mem_cons, and_assoc]

/-! ### The output port (R14, R85) -/

@[simp] theorem presenting_acc (es : List Edge) (s : State) : (presenting es s).acc = s.acc := rfl

theorem crc_eq_acc (s : State) : crc s = s.acc := rfl

theorem readCrc_of_defined {s : State} {v : Byte} (h : s.acc = some v) : readCrc s = (v, s) := by
  simp [readCrc, crc_eq_acc, h]

theorem readCrc_of_undef {s : State} (h : s.acc = none) :
    readCrc s = (Config.unwrittenCrc s.draws, { s with draws := s.draws + 1 }) := by
  simp [readCrc, crc_eq_acc, h]

/-! ### The statements about the state -/

/-- Settles O11: both runs end with the accumulator that R80's pseudocode gives from the one they share. -/
theorem futureDependsOnAccAlone : Obligations.FutureDependsOnAccAlone := by
  intro es s₁ s₂ hacc
  exact ⟨_, _, runEdges_eq_accAfter es s₁, runEdges_eq_accAfter es s₂, congrArg (accAfter · es) hacc⟩

/-- Settles O15: the run ends with `accAfter`, and an induction over the edges says when that is `UNDEF`. -/
theorem undefEndsAtFirstDefiningEdge : Obligations.UndefEndsAtFirstDefiningEdge := by
  intro es s hundef
  refine ⟨_, runEdges_eq_accAfter es s, ?_⟩
  rw [accAfter_eq_none_iff, and_iff_right hundef]

/-- Settles O14: the values of the two starting states, and the write that a loss of power is. -/
theorem resetDefinesAcc : Obligations.ResetDefinesAcc :=
  ⟨rfl, Option.some_ne_none Config.initValue, rfl, fun _ => rfl⟩

/-- Settles O18: the port reads `acc`, which presenting edges does not touch; a read is one of two cases on `acc`. -/
theorem crcShowsAcc : Obligations.CrcShowsAcc := by
  refine ⟨crc_eq_acc, fun s es => ⟨?_, ?_⟩, fun s v h => readCrc_of_defined h, fun s h => ⟨_, readCrc_of_undef h⟩⟩
  · exact presenting_acc es s
  · exact present_acc s es

end Sys2Proof.Machine

namespace Sys2Proof.Machine

/-! ### The division step and the byte it divides (R70, R71) -/

theorem shl1_getLsbD_succ (w : Byte) {i : Nat} (hi : i < 7) : (shl1 w).getLsbD (i + 1) = w.getLsbD i := by
  have hkept : i + 1 < 8 := by omega
  simp [shl1, hkept, -BitVec.getLsbD_eq_getElem]

/-- What a division step subtracts, by the bit that the shift drops (R71). -/
def divisor (dropped : Bool) : Byte := if dropped then Config.poly else 0x00#8

theorem divisor_xor (b c : Bool) : divisor (b ^^ c) = divisor b ^^^ divisor c := by
  cases b <;> cases c <;> rfl

theorem divisor_getLsbD_zero (b : Bool) : (divisor b).getLsbD 0 = b := by
  cases b <;> rfl

/-- The two arms of the step as one XOR. -/
theorem divStep_eq_xor (w : Byte) : divStep w = shl1 w ^^^ divisor (w.getLsbD 7) := by
  unfold divStep divisor
  split
  · rfl
  · exact BitVec.xor_zero.symm

theorem divStep_xor (a b : Byte) : divStep (a ^^^ b) = divStep a ^^^ divStep b := by
  have hshift : shl1 (a ^^^ b) = shl1 a ^^^ shl1 b := BitVec.shiftLeft_xor_distrib a b 1
  simp only [divStep_eq_xor, hshift, BitVec.getLsbD_xor, divisor_xor]
  ac_rfl

/-- The polynomial's constant term brings the bit that falls out back in as bit 0. -/
theorem divStep_getLsbD_zero (w : Byte) : (divStep w).getLsbD 0 = w.getLsbD 7 := by
  rw [divStep_eq_xor, BitVec.getLsbD_xor, divisor_getLsbD_zero]
  simp [shl1]

/-- No bit is lost: bit 0 of the result tells bit 7, and what the shift keeps tells the other seven. -/
theorem divStep_injective : Function.Injective divStep := by
  intro a b h
  have htop : a.getLsbD 7 = b.getLsbD 7 := by rw [← divStep_getLsbD_zero, h, divStep_getLsbD_zero]
  have hshift : shl1 a = shl1 b := by
    rwa [divStep_eq_xor, divStep_eq_xor, htop, BitVec.xor_left_inj] at h
  apply BitVec.eq_of_getLsbD_eq
  intro i hi
  obtain rfl | hlow : i = 7 ∨ i < 7 := by omega
  · exact htop
  · rw [← shl1_getLsbD_succ a hlow, hshift, shl1_getLsbD_succ b hlow]

theorem crc8Byte_xor (a b : Byte) : crc8Byte (a ^^^ b) = crc8Byte a ^^^ crc8Byte b :=
  Function.Semiconj₂.iterate divStep_xor 8 a b

theorem crc8Byte_injective : Function.Injective crc8Byte := divStep_injective.iterate 8

/-! ### The table (R31, R36, R37) -/

/-- The listing of R32 holds the remainders: the 256 entries compared one by one. -/
theorem T_eq_crc8Byte (i : Byte) : T i = crc8Byte i := by
  decide +revert

@[simp] theorem T_zero : T 0x00#8 = 0x00#8 := rfl

theorem T_xor (a b : Byte) : T (a ^^^ b) = T a ^^^ T b := by
  simp only [T_eq_crc8Byte, crc8Byte_xor]

theorem T_injective : Function.Injective T := by
  intro a b h
  rw [T_eq_crc8Byte, T_eq_crc8Byte] at h
  exact crc8Byte_injective h

theorem T_bijective : Function.Bijective T := Finite.injective_iff_bijective.mp T_injective

/-- The listing again, against the gates of R36. -/
theorem T_eq_xorNetwork (a : Byte) : T a = xorNetwork a := by
  decide +revert

/-! ### The byte update and the fold over a message (R72, R99) -/

@[simp] theorem updateByte_initValue (d : Byte) : updateByte Config.initValue d = T d :=
  congrArg T (BitVec.zero_xor)

theorem updateByte_xor (c c' d d' : Byte) :
    updateByte (c ^^^ c') (d ^^^ d') = updateByte c d ^^^ updateByte c' d' := by
  have hindex : tableIndex (c ^^^ c') (d ^^^ d') = tableIndex c d ^^^ tableIndex c' d' := by
    unfold tableIndex
    ac_rfl
  rw [updateByte, hindex, T_xor, updateByte, updateByte]

theorem fold_cons (c d : Byte) (message : List Byte) : fold c (d :: message) = fold (updateByte c d) message := rfl

/-- The fold is linear in its start value and its message together: the form of O44 that an induction carries. -/
theorem fold_xor {A B : List Byte} (hlen : A.length = B.length) (c c' : Byte) :
    fold (c ^^^ c') (List.zipWith (· ^^^ ·) A B) = fold c A ^^^ fold c' B := by
  induction A generalizing B c c' with
  | nil =>
    obtain rfl := List.length_eq_zero_iff.mp hlen.symm
    rfl
  | cons a A ih =>
    obtain ⟨b, B, rfl⟩ := List.exists_cons_of_length_eq_add_one hlen.symm
    rw [List.zipWith_cons_cons, fold_cons, fold_cons, fold_cons, updateByte_xor]
    exact ih (Nat.succ.inj hlen) _ _

/-! ### The statements about the table -/

/-- Settles O21: linearity and injectivity are those of the division step, eight times over; an injection of the finite
set of bytes is onto. -/
theorem tableIsLinearPermutation : Obligations.TableIsLinearPermutation :=
  ⟨T_zero, T_xor, T_bijective, rfl, rfl, rfl, rfl, rfl, rfl, rfl, rfl⟩

/-- Settles O25: whatever the run left, INIT writes 0x00, and the index of the update is then `i` itself. -/
theorem everyEntryStaysObservable : Obligations.EveryEntryStaysObservable := by
  intro before i s
  have hacc : accAfter s.acc (before ++ edgesOf [.init, .upd i]) = some (T i) := by
    calc accAfter s.acc (before ++ edgesOf [.init, .upd i])
      _ = edgeAcc (edgeAcc (accAfter s.acc before) (Edge.ofInstr .init)) (Edge.ofInstr (.upd i)) :=
        accAfter_append _ _ _
      _ = updateAcc (some Config.initValue) i := by rw [edgeAcc_init, edgeAcc_upd]
      _ = some (T i) := congrArg some (updateByte_initValue i)
  rw [runEdges_eq_accAfter, hacc]

/-- Settles O44: the fold's linearity from the initial value, which is its own XOR with itself. -/
theorem crcIsLinear : Obligations.CrcIsLinear :=
  fun _ _ hlen => fold_xor hlen Config.initValue Config.initValue

/-- Settles O20: the listing against the algorithm, whose eight steps are written out. -/
theorem tableIsDivisionRemainder : Obligations.TableIsDivisionRemainder :=
  ⟨T_eq_crc8Byte, fun _ => rfl, T_zero⟩

/-- Settles O22: the table is the network, and the network's list holds the eight equations bit by bit. -/
theorem tableIsXorNetwork : Obligations.TableIsXorNetwork := by
  intro a
  rw [T_eq_xorNetwork]
  refine ⟨rfl, ?_, ?_, ?_, ?_, ?_, ?_, ?_, ?_⟩ <;> exact BitVec.getLsbD_ofBoolListLE

end Sys2Proof.Machine

namespace Sys2Proof

/-! ### The command word by its fields (R50 to R53) -/

/-- Every command word has one of the four op codes over an operand byte (R53, R55). -/
theorem cmdWord_cases (w : CmdWord) :
    ∃ d : Byte, w = cmdWord 0b00#2 d ∨ w = cmdWord 0b01#2 d ∨ w = cmdWord 0b10#2 d ∨ w = cmdWord 0b11#2 d := by
  refine ⟨cmdDin w, ?_⟩
  obtain hop | hop | hop | hop := Machine.opCode_cases (cmdOp w)
  · exact .inl (hop ▸ (cmdWord_fields w).symm)
  · exact .inr (.inl (hop ▸ (cmdWord_fields w).symm))
  · exact .inr (.inr (.inl (hop ▸ (cmdWord_fields w).symm)))
  · exact .inr (.inr (.inr (hop ▸ (cmdWord_fields w).symm)))

/-- The opcode map's mask keeps the op field and clears the operand byte. -/
theorem cmdWord_and_mask (op : OpCode) (d : Byte) : cmdWord op d &&& 0x300#10 = cmdWord op 0x00#8 := by
  calc cmdWord op d &&& 0x300#10
    _ = (op ++ d) &&& (BitVec.allOnes 2 ++ 0x00#8) := rfl
    _ = (op &&& BitVec.allOnes 2) ++ (d &&& 0x00#8) := BitVec.and_append
    _ = cmdWord op 0x00#8 := by rw [BitVec.and_allOnes, BitVec.and_zero, cmdWord]

theorem cmdOp_of_and_mask {w : CmdWord} {op : OpCode} (h : w &&& 0x300#10 = cmdWord op 0x00#8) : cmdOp w = op := by
  rw [← cmdWord_fields w, cmdWord_and_mask] at h
  simpa using congrArg cmdOp h

theorem cmdDin_eq_setWidth (w : CmdWord) : cmdDin w = w.setWidth 8 :=
  (BitVec.setWidth_eq_extractLsb' (by decide)).symm

theorem cmdWord_getLsbD_nine (op : OpCode) (d : Byte) : (cmdWord op d).getLsbD 9 = op.getLsbD 1 :=
  BitVec.getLsbD_append

/-- The op code's first word plus the operand, as R58 writes the words of UPD and LOAD. -/
theorem cmdWord_eq_add (op : OpCode) (d : Byte) : cmdWord op d = cmdWord op 0x00#8 + d.setWidth 10 := by
  rw [BitVec.setWidth_eq_append (by decide)]
  exact BitVec.append_zero_add_zero_append.symm

/-! ### The decoder and the encoder (R53, R54, R58) -/

@[simp] theorem decode_cmdWord_nop (d : Byte) : decode (cmdWord 0b00#2 d) = .nop := by
  simp [decode, Config.opNop]

@[simp] theorem decode_cmdWord_init (d : Byte) : decode (cmdWord 0b01#2 d) = .init := by
  simp [decode, Config.opNop, Config.opInit]

@[simp] theorem decode_cmdWord_upd (d : Byte) : decode (cmdWord 0b10#2 d) = .upd d := by
  simp [decode, Config.opNop, Config.opInit, Config.opUpd]

@[simp] theorem decode_cmdWord_load (d : Byte) : decode (cmdWord 0b11#2 d) = .load d := by
  simp [decode, Config.opNop, Config.opInit, Config.opUpd]

theorem encode_upd (d : Byte) : encode (.upd d) = 0x200#10 + d.setWidth 10 := cmdWord_eq_add 0b10#2 d

theorem encode_load (d : Byte) : encode (.load d) = 0x300#10 + d.setWidth 10 := cmdWord_eq_add 0b11#2 d

/-- The operand's type keeps it in range (R52, R55). -/
theorem wellFormed_eq_true (i : Instr) : i.wellFormed = true := by
  cases i with
  | nop => rfl
  | init => rfl
  | upd d => exact decide_eq_true d.isLt
  | load d => exact decide_eq_true d.isLt

@[simp] theorem decode_encode (i : Instr) : decode (encode i) = i := by
  cases i with
  | nop => exact decode_cmdWord_nop 0x00#8
  | init => exact decode_cmdWord_init 0x00#8
  | upd d => exact decode_cmdWord_upd d
  | load d => exact decode_cmdWord_load d

/-- Bit 9 tells the two commands that use `din` from the two that ignore it (R54). -/
theorem encode_decode (w : CmdWord) : encode (decode w) = if w.getLsbD 9 then w else w &&& 0x300#10 := by
  obtain ⟨d, rfl | rfl | rfl | rfl⟩ := cmdWord_cases w
  · rw [decode_cmdWord_nop, cmdWord_getLsbD_nine, cmdWord_and_mask]
    rfl
  · rw [decode_cmdWord_init, cmdWord_getLsbD_nine, cmdWord_and_mask]
    rfl
  · rw [decode_cmdWord_upd, cmdWord_getLsbD_nine]
    rfl
  · rw [decode_cmdWord_load, cmdWord_getLsbD_nine]
    rfl

/-! ### The byte form and the opcode table's numbering (log entries 4, 5) -/

theorem wordExists_toNat (w : CmdWord) : wordExists w.toNat = true := decide_eq_true w.isLt

/-- A word's two bytes, low byte first, are read as the word is. -/
theorem decodeBytes_word (w : CmdWord) (rest : List Byte) :
    decodeBytes (BitVec.ofNat 8 w.toNat :: BitVec.ofNat 8 (w.toNat / 256) :: rest) = .ok (decode w, rest) := by
  have hvalue : (BitVec.ofNat 8 w.toNat).toNat + 256 * (BitVec.ofNat 8 (w.toNat / 256)).toNat = w.toNat := by
    have hlt : w.toNat < 1024 := w.isLt
    simp only [BitVec.toNat_ofNat]
    omega
  rw [decodeBytes, hvalue, if_pos (wordExists_toNat w), BitVec.ofNat_toNat, BitVec.setWidth_eq]

theorem decodeBytes_encodeBytes (i : Instr) (rest : List Byte) :
    decodeBytes (encodeBytes i ++ rest) = .ok (i, rest) := by
  rw [encodeBytes, List.cons_append, List.singleton_append, decodeBytes_word, decode_encode]

theorem tableValue_toNat (w : CmdWord) : tableValue 16 w.toNat = w.toNat :=
  Nat.mod_eq_of_lt (w.isLt.trans (by decide))

theorem decodeTableWord_toNat (w : CmdWord) : decodeTableWord 16 w.toNat = some (decode w) := by
  simp only [decodeTableWord, tableValue_toNat, wordExists_toNat, decodeBytes_word, if_true]

/-! ### The opcode map (R53) -/

/-- All four rows have the one mask, so a word is matched by its op field. -/
theorem opcodeTable_filter_cmdWord (op : OpCode) (d : Byte) :
    (opcodeTable.filter fun r => cmdWord op d &&& r.mask = r.pattern)
      = opcodeTable.filter fun r => cmdWord op 0x00#8 = r.pattern := by
  simp only [opcodeTable, List.filter_cons, List.filter_nil, cmdWord_and_mask]

theorem opcodeTable_selects_mnemonic (w : CmdWord) :
    (opcodeTable.filter fun r => w &&& r.mask = r.pattern).map (·.mnemonic) = [(decode w).mnemonic] := by
  obtain ⟨d, rfl | rfl | rfl | rfl⟩ := cmdWord_cases w
  · rw [opcodeTable_filter_cmdWord, decode_cmdWord_nop]
    rfl
  · rw [opcodeTable_filter_cmdWord, decode_cmdWord_init]
    rfl
  · rw [opcodeTable_filter_cmdWord, decode_cmdWord_upd]
    rfl
  · rw [opcodeTable_filter_cmdWord, decode_cmdWord_load]
    rfl

end Sys2Proof

namespace Sys2Proof.Machine

/-! ### An edge that presents a command word (R50, R80) -/

/-- The mux's reading of an edge and the meaning of the command it presents, without reset (R80). -/
theorem exec_decode (w : CmdWord) (s : State) :
    exec (decode w) s = .next (writeAcc (edgeAcc s.acc (Edge.command w)) s) := by
  rw [← edge_command_word w, exec_decode_word, edge_command_word]
  rfl

theorem step_command {s : State} {w : CmdWord} {rest : List Edge} (h : s.edges = Edge.command w :: rest) :
    step s = exec (decode w) { s with edges := rest } := by
  rw [step_takes_edge h, exec_decode]
  rfl

theorem runEdges_command (w : CmdWord) (s : State) : runEdges [Edge.command w] s = exec (decode w) s := by
  rw [runEdges_eq_accAfter, exec_decode]
  rfl

/-- A word of a row of the opcode map writes what the mux's arm of that row selects (R53, R73). -/
theorem runEdges_of_and_mask {w : CmdWord} {op : OpCode} (h : w &&& 0x300#10 = cmdWord op 0x00#8) (s : State) :
    runEdges [Edge.command w] s = .next { s with acc := nextAcc op s.acc (w.setWidth 8) } := by
  rw [runEdges_eq_accAfter, ← cmdOp_of_and_mask h, ← cmdDin_eq_setWidth]
  rfl

theorem withFetchWord_edges (w : CmdWord) (s : State) :
    (s.withFetchWord 16 w.toNat).edges = Edge.command w :: s.edges.tail := by
  simp only [State.withFetchWord, tableValue_toNat, BitVec.ofNat_toNat, BitVec.setWidth_eq]

/-- A word and its canonical word are one command (R54). -/
theorem runEdges_canonical (w : CmdWord) (s : State) :
    runEdges [Edge.command w] s = runEdges [Edge.command (encode (decode w))] s := by
  rw [runEdges_command, runEdges_command, decode_encode]

/-! ### The disassembler (R58) -/

theorem assemble_disassemble (w : CmdWord) : assemble (disassemble w) = [Edge.command (encode (decode w))] := by
  unfold disassemble
  cases decode w with
  | nop => rfl
  | init => rfl
  | upd d => rfl
  | load d => rfl

/-! ### The statements about the encoding -/

/-- Settles O26: the decoder on each command's canonical word, and on the word's two bytes. -/
theorem decodeOfEncode : Obligations.DecodeOfEncode :=
  fun i => ⟨wellFormed_eq_true i, decode_encode i, decodeBytes_encodeBytes i⟩

/-- Settles O27: the canonical word by the word's op field; both words decode to one command. -/
theorem canonicalWords : Obligations.CanonicalWords :=
  ⟨fun d => ⟨decode_cmdWord_nop d, decode_cmdWord_init d⟩, rfl, rfl, encode_decode, runEdges_canonical⟩

/-- Settles O28: the masked word gives the op field, hence the row, and the arm of the mux. -/
theorem everyWordHasItsRowsEffect : Obligations.EveryWordHasItsRowsEffect := by
  refine ⟨opcodeTable_selects_mnemonic, fun w s => ⟨fun hrow => ?_, fun hrow => ?_, fun hrow => ?_, fun hrow => ?_⟩⟩
  · exact runEdges_of_and_mask (op := 0b00#2) hrow s
  · exact runEdges_of_and_mask (op := 0b01#2) hrow s
  · exact runEdges_of_and_mask (op := 0b10#2) hrow s
  · exact runEdges_of_and_mask (op := 0b11#2) hrow s

/-- Settles O30: the number is the word's own, and the placed edge is the one the step takes. -/
theorem placedWordIsExecuted : Obligations.PlacedWordIsExecuted := by
  intro w s
  refine ⟨decodeTableWord_toNat w, ?_⟩
  rw [step_command (withFetchWord_edges w s)]
  rfl

/-- Settles O31: each form's word as the op code's first word plus the operand, and the disassembler by op field. -/
theorem assembleOfDisassemble : Obligations.AssembleOfDisassemble := by
  refine ⟨rfl, rfl, fun b => ?_, fun v => ?_, fun d => ?_, assemble_disassemble, fun w s => ?_⟩
  · exact congrArg ([Edge.command ·]) (encode_upd b)
  · exact congrArg ([Edge.command ·]) (encode_load v)
  · simp [disassemble]
  · rw [assemble_disassemble, ← runEdges_canonical]

/-- Settles O29: each of the section's words is an op code over an operand byte. -/
theorem decodedWordsOfTheSpec : Obligations.DecodedWordsOfTheSpec :=
  ⟨decode_cmdWord_nop 0x00#8, decode_cmdWord_nop 0xFF#8, decode_cmdWord_init 0x00#8, decode_cmdWord_init 0x7E#8,
    decode_cmdWord_upd 0x31#8, decode_cmdWord_upd 0xFF#8, decode_cmdWord_load 0x97#8, decode_cmdWord_load 0x00#8⟩

end Sys2Proof.Machine

namespace Sys2Proof.Machine

/-! ### The characters of a token -/

/-- The characters at which the assembler ends a token (R57, R59; log entry 7). -/
def tokenEnds : List Char := [';', ' ', '\t', ',', '[', ']']

/-- The text of one token: some characters, none of which ends a token. -/
def IsTokenText (cs : List Char) : Prop := cs ≠ [] ∧ ∀ c ∈ cs, c ∉ tokenEnds

theorem tokenize_cons_inside {c : Char} (hc : c ∉ tokenEnds) (soFar rest : List Char) :
    tokenize soFar (c :: rest) = tokenize (c :: soFar) rest := by
  simp only [tokenEnds, List.mem_cons, List.not_mem_nil, or_false, not_or] at hc
  obtain ⟨hsemicolon, hblank, htab, hcomma, hopening, hclosing⟩ := hc
  simp only [tokenize, hsemicolon, hblank, htab, hcomma, hopening, hclosing, or_self, if_false]

/-- What ends a token closes what was gathered and is then read afresh. -/
theorem tokenize_cons_end {c : Char} (hc : c ∈ tokenEnds) (soFar rest : List Char) :
    tokenize soFar (c :: rest) = gathered soFar ++ tokenize [] (c :: rest) := by
  simp only [tokenEnds, List.mem_cons, List.not_mem_nil, or_false] at hc
  obtain rfl | rfl | rfl | rfl | rfl | rfl := hc
  · exact (List.append_nil _).symm
  · rfl
  · rfl
  · rfl
  · rfl
  · rfl

theorem tokenize_inside {cs : List Char} (hcs : ∀ c ∈ cs, c ∉ tokenEnds) (soFar rest : List Char) :
    tokenize soFar (cs ++ rest) = tokenize (cs.reverse ++ soFar) rest := by
  induction cs generalizing soFar with
  | nil => rfl
  | cons c cs ih =>
    obtain ⟨hc, hcs⟩ := List.forall_mem_cons.mp hcs
    rw [List.cons_append, tokenize_cons_inside hc, ih hcs, List.reverse_cons, List.append_assoc, List.singleton_append]

theorem gathered_reverse {cs : List Char} (hcs : cs ≠ []) : gathered cs.reverse = [.text cs] := by
  cases h : cs.reverse with
  | nil => exact absurd (List.reverse_eq_nil_iff.mp h) hcs
  | cons c rest =>
    calc gathered (c :: rest)
      _ = [.text (c :: rest).reverse] := rfl
      _ = [.text cs] := by rw [← h, List.reverse_reverse]

/-- A token's text is one token, at the end of the line and before whatever ends it. -/
theorem tokenize_text {cs : List Char} (hcs : IsTokenText cs) {rest : List Char}
    (hrest : ∀ c ∈ rest.head?, c ∈ tokenEnds) : tokenize [] (cs ++ rest) = .text cs :: tokenize [] rest := by
  obtain ⟨hne, hinside⟩ := hcs
  have hafter : tokenize cs.reverse rest = gathered cs.reverse ++ tokenize [] rest := by
    cases rest with
    | nil => exact (List.append_nil _).symm
    | cons c rest => exact tokenize_cons_end (hrest c rfl) _ _
  rw [tokenize_inside hinside, List.append_nil, hafter, gathered_reverse hne, List.singleton_append]

theorem tokenize_text_alone {cs : List Char} (hcs : IsTokenText cs) : tokenize [] cs = [.text cs] := by
  simpa [tokenize, gathered] using tokenize_text hcs (rest := []) (by simp)

/-! ### Digits and numbers (R57) -/

theorem hexDigit?_hexChar {d : Nat} (hd : d < 16) : hexDigit? (hexChar d) = some d := by
  revert d
  decide

theorem hexChar_not_mem_tokenEnds {d : Nat} (hd : d < 16) : hexChar d ∉ tokenEnds := by
  revert d
  decide

/-- Hexadecimal digits in a row are read back as the number they write. -/
theorem digitsValue_hexChar {ds : List Nat} (hds : ∀ d ∈ ds, d < 16) :
    digitsValue hexDigit? 16 (ds.map hexChar) = some (ds.foldl (16 * · + ·) 0) := by
  suffices hfrom : ∀ n, (ds.map hexChar).foldl (fun acc c => acc.bind fun n => (hexDigit? c).map (16 * n + ·)) (some n)
      = some (ds.foldl (16 * · + ·) n) from hfrom 0
  induction ds with
  | nil => exact fun n => rfl
  | cons d ds ih =>
    obtain ⟨hd, hds⟩ := List.forall_mem_cons.mp hds
    intro n
    simp only [List.map_cons, List.foldl_cons, Option.bind_some, hexDigit?_hexChar hd, Option.map_some, ih hds]

theorem isTokenText_hex {ds : List Nat} (hds : ∀ d ∈ ds, d < 16) : IsTokenText ('0' :: 'x' :: ds.map hexChar) := by
  refine ⟨List.cons_ne_nil _ _, ?_⟩
  simp only [List.forall_mem_cons, List.forall_mem_map]
  exact ⟨by decide, by decide, fun d hd => hexChar_not_mem_tokenEnds (hds d hd)⟩

/-- The two digits that `printByte` writes. -/
def byteDigits (b : Byte) : List Nat := [b.toNat / 16, b.toNat % 16]

theorem printByte_eq_digits (b : Byte) : printByte b = '0' :: 'x' :: (byteDigits b).map hexChar := rfl

theorem byteDigits_lt (b : Byte) : ∀ d ∈ byteDigits b, d < 16 := by
  have hlt : b.toNat < 256 := b.isLt
  simp only [byteDigits, List.forall_mem_cons, List.not_mem_nil, false_implies, implies_true, and_true]
  omega

theorem byteDigits_value (b : Byte) : (byteDigits b).foldl (16 * · + ·) 0 = b.toNat := by
  simp only [byteDigits, List.foldl_cons, List.foldl_nil]
  omega

theorem isTokenText_printByte (b : Byte) : IsTokenText (printByte b) :=
  printByte_eq_digits b ▸ isTokenText_hex (byteDigits_lt b)

theorem parseByte_printByte (b : Byte) : parseByte (printByte b) = some b := by
  calc parseByte (printByte b)
    _ = (digitsValue hexDigit? 16 ((byteDigits b).map hexChar)).map (BitVec.ofNat 8) := rfl
    _ = some b := by simp [digitsValue_hexChar (byteDigits_lt b), byteDigits_value]

/-- The three digits that `printWord` writes. -/
def wordDigits (w : CmdWord) : List Nat := [w.toNat / 256, w.toNat / 16 % 16, w.toNat % 16]

theorem printWord_eq_digits (w : CmdWord) : printWord w = (wordDigits w).map hexChar := rfl

theorem wordDigits_lt (w : CmdWord) : ∀ d ∈ wordDigits w, d < 16 := by
  have hlt : w.toNat < 1024 := w.isLt
  simp only [wordDigits, List.forall_mem_cons, List.not_mem_nil, false_implies, implies_true, and_true]
  omega

theorem wordDigits_value (w : CmdWord) : (wordDigits w).foldl (16 * · + ·) 0 = w.toNat := by
  simp only [wordDigits, List.foldl_cons, List.foldl_nil]
  omega

theorem isTokenText_printWord (w : CmdWord) : IsTokenText ('0' :: 'x' :: printWord w) :=
  printWord_eq_digits w ▸ isTokenText_hex (wordDigits_lt w)

theorem parseWord_printWord (w : CmdWord) : parseWord ('0' :: 'x' :: printWord w) = some w := by
  calc parseWord ('0' :: 'x' :: printWord w)
    _ = (digitsValue hexDigit? 16 ((wordDigits w).map hexChar)).bind
          fun n => if wordExists n then some (BitVec.ofNat 10 n) else none := rfl
    _ = some w := by simp [digitsValue_hexChar (wordDigits_lt w), wordDigits_value, wordExists_toNat]

/-! ### The operands of CALC (R59) -/

/-- The text of CALC's bytes after its first, each behind a comma. -/
def printMoreBytes (message : List Byte) : List Char := message.flatMap fun b => ',' :: printByte b

theorem printBytes_cons (b : Byte) (rest : List Byte) :
    printBytes (b :: rest) = printByte b ++ printMoreBytes rest := by
  induction rest generalizing b with
  | nil => exact (List.append_nil _).symm
  | cons b' rest ih =>
    calc printBytes (b :: b' :: rest)
      _ = printByte b ++ [','] ++ printBytes (b' :: rest) := rfl
      _ = printByte b ++ (',' :: printByte b' ++ printMoreBytes rest) := by
        rw [ih, List.append_assoc, List.singleton_append, List.cons_append]
      _ = printByte b ++ printMoreBytes (b' :: rest) := by rw [printMoreBytes, printMoreBytes, List.flatMap_cons]

/-- A byte of CALC is followed by the next one's comma or by the closing bracket. -/
theorem tokenize_printByte_more (b : Byte) (rest : List Byte) :
    tokenize [] (printByte b ++ (printMoreBytes rest ++ [']']))
      = .text (printByte b) :: tokenize [] (printMoreBytes rest ++ [']']) := by
  apply tokenize_text (isTokenText_printByte b)
  cases rest with
  | nil => simp [printMoreBytes, tokenEnds]
  | cons b' rest => simp [printMoreBytes, tokenEnds]

theorem parseMoreBytes_printMoreBytes (message : List Byte) :
    parseMoreBytes (tokenize [] (printMoreBytes message ++ [']'])) = some message := by
  induction message with
  | nil => rfl
  | cons b rest ih =>
    have htokens : tokenize [] (printMoreBytes (b :: rest) ++ [']'])
        = .comma :: .text (printByte b) :: tokenize [] (printMoreBytes rest ++ [']']) := by
      rw [← tokenize_printByte_more, ← List.append_assoc]
      rfl
    rw [htokens, parseMoreBytes, parseByte_printByte, ih]
    rfl

theorem parseBytes_printBytes (message : List Byte) :
    parseBytes (tokenize [] (printBytes message ++ [']'])) = some message := by
  cases message with
  | nil => rfl
  | cons b rest =>
    rw [printBytes_cons, List.append_assoc, tokenize_printByte_more, parseBytes, parseByte_printByte,
      parseMoreBytes_printMoreBytes]
    rfl

/-! ### The lines with operands (R57, R59) -/

theorem parseLine_upd (b : Byte) : parseLine (printLine (.upd b)) = some (.upd b) := by
  have htokens : tokenize [] (printLine (.upd b)) = [.text ['U', 'P', 'D'], .text (printByte b)] := by
    rw [← tokenize_text_alone (isTokenText_printByte b)]
    rfl
  rw [parseLine, htokens]
  exact congrArg (Option.map AsmLine.upd) (parseByte_printByte b)

theorem parseLine_load (v : Byte) : parseLine (printLine (.load v)) = some (.load v) := by
  have htokens : tokenize [] (printLine (.load v)) = [.text ['L', 'O', 'A', 'D'], .text (printByte v)] := by
    rw [← tokenize_text_alone (isTokenText_printByte v)]
    rfl
  rw [parseLine, htokens]
  exact congrArg (Option.map AsmLine.load) (parseByte_printByte v)

theorem parseLine_word (w : CmdWord) : parseLine (printLine (.word w)) = some (.word w) := by
  have htokens : tokenize [] (printLine (.word w))
      = [.text ['.', 'w', 'o', 'r', 'd'], .text ('0' :: 'x' :: printWord w)] := by
    rw [← tokenize_text_alone (isTokenText_printWord w)]
    rfl
  rw [parseLine, htokens]
  exact congrArg (Option.map AsmLine.word) (parseWord_printWord w)

theorem parseLine_update (c b : Byte) : parseLine (printLine (.update c b)) = some (.update c b) := by
  have htokens : tokenize [] (printLine (.update c b))
      = [.text ['U', 'P', 'D', 'A', 'T', 'E'], .text (printByte c), .comma, .text (printByte b)] := by
    calc tokenize [] (printLine (.update c b))
      _ = .text ['U', 'P', 'D', 'A', 'T', 'E'] :: tokenize [] (printByte c ++ ([',', ' '] ++ printByte b)) := rfl
      _ = .text ['U', 'P', 'D', 'A', 'T', 'E'] :: .text (printByte c) :: .comma :: tokenize [] (printByte b) := by
        rw [tokenize_text (isTokenText_printByte c) (by simp [tokenEnds])]
        rfl
      _ = [.text ['U', 'P', 'D', 'A', 'T', 'E'], .text (printByte c), .comma, .text (printByte b)] := by
        rw [tokenize_text_alone (isTokenText_printByte b)]
  rw [parseLine, htokens]
  change ((parseByte (printByte c)).bind fun c => (parseByte (printByte b)).map (AsmLine.update c))
    = some (AsmLine.update c b)
  rw [parseByte_printByte, parseByte_printByte]
  rfl

theorem parseLine_calcOf (message : List Byte) :
    parseLine (printLine (.calcOf message)) = some (.calcOf message) := by
  have htokens : tokenize [] (printLine (.calcOf message))
      = .text ['C', 'A', 'L', 'C'] :: .opening :: tokenize [] (printBytes message ++ [']']) := rfl
  rw [parseLine, htokens]
  exact congrArg (Option.map AsmLine.calcOf) (parseBytes_printBytes message)

/-- Settles O32: the lines without operands are read as they stand, and each form with operands by its lemma. -/
theorem assemblerTextReadsBack : Obligations.AssemblerTextReadsBack := by
  intro line
  cases line with
  | empty => rfl
  | nop => rfl
  | init => rfl
  | upd b => exact parseLine_upd b
  | load v => exact parseLine_load v
  | word w => exact parseLine_word w
  | reset => rfl
  | update c b => exact parseLine_update c b
  | calcOf message => exact parseLine_calcOf message
  | calcNull => rfl

end Sys2Proof.Machine

namespace Sys2Proof.Machine

/-! ### The division step bit by bit (R71) -/

theorem divisor_getLsbD (b : Bool) (i : Nat) : (divisor b).getLsbD i = (b && Config.poly.getLsbD i) := by
  cases b with
  | false => exact BitVec.getLsbD_zero
  | true => rfl

theorem divStep_getLsbD_succ (w : Byte) {i : Nat} (hi : i < 7) :
    (divStep w).getLsbD (i + 1) = (w.getLsbD i ^^ (w.getLsbD 7 && Config.poly.getLsbD (i + 1))) := by
  rw [divStep_eq_xor, BitVec.getLsbD_xor, shl1_getLsbD_succ w hi, divisor_getLsbD]

/-- Where the polynomial has a term, the bit that the shift drops is subtracted. -/
theorem divStep_getLsbD_of_poly_set (w : Byte) {i : Nat} (hi : i < 7) (hpoly : Config.poly.getLsbD (i + 1) = true) :
    (divStep w).getLsbD (i + 1) = (w.getLsbD i ^^ w.getLsbD 7) := by
  rw [divStep_getLsbD_succ w hi, hpoly, Bool.and_true]

/-- Where the polynomial has no term, the bit is only shifted. -/
theorem divStep_getLsbD_of_poly_clear (w : Byte) {i : Nat} (hi : i < 7) (hpoly : Config.poly.getLsbD (i + 1) = false) :
    (divStep w).getLsbD (i + 1) = w.getLsbD i := by
  rw [divStep_getLsbD_succ w hi, hpoly, Bool.and_false, Bool.xor_false]

/-! ### The laws of the byte update (R72, R75, R76) -/

theorem updateByte_eq_T_xor (c d : Byte) : updateByte c d = T (c ^^^ d) := rfl

theorem updateByte_comm (c d : Byte) : updateByte c d = updateByte d c := congrArg T (BitVec.xor_comm c d)

@[simp] theorem updateByte_zero_right (c : Byte) : updateByte c 0x00#8 = T c := congrArg T BitVec.xor_zero

@[simp] theorem updateByte_self (c : Byte) : updateByte c c = 0x00#8 := by
  rw [updateByte_eq_T_xor, BitVec.xor_self, T_zero]

/-- An error in the running value adds its table entry to the result (R76 (b)). -/
theorem updateByte_xor_left (c e d : Byte) : updateByte (c ^^^ e) d = updateByte c d ^^^ T e := by
  simpa using updateByte_xor c e d 0x00#8

/-- For a fixed byte no two running values are folded onto one (R75). -/
theorem updateByte_left_injective (d : Byte) : Function.Injective (updateByte · d) :=
  fun _ _ h => (BitVec.xor_left_inj d).mp (T_injective h)

/-- For a fixed running value no two bytes give one result (R75). -/
theorem updateByte_right_injective (c : Byte) : Function.Injective (updateByte c) :=
  fun _ _ h => (BitVec.xor_right_inj c).mp (T_injective h)

/-- An UPD depends on the XOR of its two bytes alone (R76 (c)). -/
theorem nextAcc_upd_eq_from_zero (a d : Byte) :
    nextAcc 0b10#2 (some a) d = nextAcc 0b10#2 (some 0x00#8) (a ^^^ d) :=
  congrArg some (updateByte_initValue (a ^^^ d)).symm

theorem xor_xor_cancel_left (a x : Byte) : a ^^^ (a ^^^ x) = x := by
  rw [← BitVec.xor_assoc, BitVec.xor_self, BitVec.zero_xor]

/-- The one byte that takes `a` to `v`, by any inverse of the table (R76 (d)). -/
theorem updateByte_eq_iff {inv : Byte → Byte} (hinv : Function.RightInverse inv T) {a v d : Byte} :
    updateByte a d = v ↔ d = a ^^^ inv v := by
  have hreached : updateByte a (a ^^^ inv v) = v := by rw [updateByte_eq_T_xor, xor_xor_cancel_left, hinv v]
  calc updateByte a d = v
    _ ↔ updateByte a d = updateByte a (a ^^^ inv v) := by rw [hreached]
    _ ↔ d = a ^^^ inv v := (updateByte_right_injective a).eq_iff

/-! ### The fold over a message keeps values apart (R75, R99) -/

theorem fold_append (c : Byte) (A B : List Byte) : fold c (A ++ B) = fold (fold c A) B := List.foldl_append

theorem fold_injective (message : List Byte) : Function.Injective (fold · message) := by
  induction message with
  | nil => exact Function.injective_id
  | cons d message ih => exact ih.comp (updateByte_left_injective d)

/-! ### The sub-blocks (R77) -/

/-- The index XOR and the ROM in series are the byte update, `UNDEF` included (R75). -/
theorem nets_romQ (acc : Option Byte) (e : Edge) : (nets acc e).romQ = updateAcc acc e.din := Option.map_map ..

/-- The mux by its two select inputs is the case on `op`, when the net it is given is the byte update (R73). -/
theorem feedbackMux_updateAcc (op : OpCode) (acc : Option Byte) (din : Byte) :
    feedbackMux op acc (updateAcc acc din) din = nextAcc op acc din := by
  obtain rfl | rfl | rfl | rfl := opCode_cases op
  · rfl
  · rfl
  · rfl
  · rfl

theorem nets_accD (acc : Option Byte) (e : Edge) : (nets acc e).accD = nextAcc e.op acc e.din := by
  calc (nets acc e).accD
    _ = feedbackMux e.op acc (nets acc e).romQ e.din := rfl
    _ = nextAcc e.op acc e.din := by rw [nets_romQ, feedbackMux_updateAcc]

theorem nets_accN (acc : Option Byte) (e : Edge) : (nets acc e).accN = edgeAcc acc e := by
  calc (nets acc e).accN
    _ = resetGate e.rst (nets acc e).accD := rfl
    _ = edgeAcc acc e := by rw [nets_accD, resetGate, edgeAcc]

/-! ### The statements about the datapath -/

/-- Settles O9: the step takes its edge as R80's pseudocode says, and the mux is read arm by arm. -/
theorem stepFollowsPseudocode : Obligations.StepFollowsPseudocode := by
  refine ⟨fun s e rest h => step_takes_edge h, fun acc din => ?_, fun op acc din => nextAcc_eq_none_iff⟩
  exact ⟨nextAcc_nop acc din, nextAcc_init acc din, nextAcc_upd acc din, nextAcc_load acc din⟩

/-- Settles O12: the nets in the order of the wiring; the last one is what the step writes. -/
theorem subBlocksComputeStep : Obligations.SubBlocksComputeStep := by
  intro s e rest h
  refine ⟨?_, rfl, rfl, nets_accD s.acc e, fun hop => ?_, rfl, crc_eq_acc s⟩
  · rw [step_takes_edge h, nets_accN]
  · rw [nets_accD, hop, nextAcc_upd, nets_romQ]

/-- Settles O23: the update reads the table at the XOR of its two bytes, which commutes, cancels and is split by the
table's linearity. -/
theorem updateByteReadsTable : Obligations.UpdateByteReadsTable :=
  ⟨fun c d => ⟨updateByte_eq_T_xor c d, updateByte_comm c d, T_xor c d⟩,
    fun c => ⟨updateByte_initValue c, updateByte_zero_right c, updateByte_self c⟩, rfl⟩

/-- Settles O24: the table's inverse is that of a bijection, and one XOR with `a` brings it to the byte. -/
theorem updateLaws : Obligations.UpdateLaws := by
  obtain ⟨inv, hleft, hright⟩ := Function.bijective_iff_has_inverse.mp T_bijective
  refine ⟨fun a b => ⟨divStep_xor a b, crc8Byte_xor a b, T_xor a b⟩, updateByte_xor_left, nextAcc_upd_eq_from_zero,
    inv, fun v => ⟨hright v, hleft v⟩, fun a v d => updateByte_eq_iff hright⟩

/-- Settles O43: the differing bytes give differing values after one update, and the common tail keeps them apart. -/
theorem oneChangedByteIsDetected : Obligations.OneChangedByteIsDetected := by
  intro A C b c hne heq
  rw [crc8, crc8, fold_append, fold_append, fold_cons, fold_cons] at heq
  have hupdate : updateByte (fold Config.initValue A) b = updateByte (fold Config.initValue A) c :=
    fold_injective C heq
  exact hne (updateByte_right_injective _ hupdate)

/-- Settles O19: bits 1 and 2 are where the polynomial has a term, bits 3 to 7 where it has none. -/
theorem divStepShiftsAndSubtracts : Obligations.DivStepShiftsAndSubtracts := by
  refine ⟨fun w => rfl, fun w => ⟨divStep_getLsbD_zero w, ?_, ?_, ?_, ?_, ?_, ?_, ?_⟩, rfl, rfl, rfl, rfl⟩
  · exact divStep_getLsbD_of_poly_set w (by decide) rfl
  · exact divStep_getLsbD_of_poly_set w (by decide) rfl
  · exact divStep_getLsbD_of_poly_clear w (by decide) rfl
  · exact divStep_getLsbD_of_poly_clear w (by decide) rfl
  · exact divStep_getLsbD_of_poly_clear w (by decide) rfl
  · exact divStep_getLsbD_of_poly_clear w (by decide) rfl
  · exact divStep_getLsbD_of_poly_clear w (by decide) rfl

end Sys2Proof.Machine

namespace Sys2Proof.Machine

/-! ### The four meanings as writes of `acc` (R81 to R84) -/

/-- Writing `acc` leaves a state as it was exactly when it writes what `acc` held. -/
theorem writeAcc_eq_self_iff {v : Option Byte} {s : State} : writeAcc v s = s ↔ v = s.acc :=
  ⟨fun h => congrArg State.acc h, fun h => h ▸ writeAcc_readAcc s⟩

theorem exec_nop (s : State) : exec .nop s = .next s := rfl

theorem exec_init (s : State) : exec .init s = .next (writeAcc (some Config.initValue) s) := rfl

theorem exec_upd (d : Byte) (s : State) : exec (.upd d) s = .next (writeAcc (updateAcc s.acc d) s) := rfl

theorem exec_load (v : Byte) (s : State) : exec (.load v) s = .next (writeAcc (some v) s) := rfl

theorem updateAcc_some (a d : Byte) : updateAcc (some a) d = some (updateByte a d) := rfl

/-- UPD has no effect exactly when the byte update returns what `acc` held. -/
theorem exec_upd_eq_next_self_iff {d : Byte} {s : State} : exec (.upd d) s = .next s ↔ updateAcc s.acc d = s.acc := by
  rw [exec_upd, Host.Outcome.next.injEq, writeAcc_eq_self_iff]

theorem exec_upd_of_undef {s : State} (h : s.acc = none) (d : Byte) : exec (.upd d) s = .next s := by
  rw [exec_upd_eq_next_self_iff, h]
  rfl

/-- UPD on a defined accumulator. -/
theorem exec_upd_of_defined {a : Byte} {s : State} (h : s.acc = some a) (d : Byte) :
    exec (.upd d) s = .next (writeAcc (some (updateByte a d)) s) := by
  rw [exec_upd, h, updateAcc_some]

/-- The listing of R32 has two entries that stand at their own index, compared entry by entry. -/
theorem T_eq_self_iff {a : Byte} : T a = a ↔ a = 0x00#8 ∨ a = 0xFD#8 := by
  decide +revert

/-! ### What one step and a run of steps do (R80) -/

theorem step_of_no_edge {s : State} (h : s.edges = []) : step s = .next s := by
  obtain ⟨-, hstep⟩ | ⟨e, rest, hcons, -⟩ := step_cases s
  · exact hstep
  · simp [h] at hcons

/-- Every edge keeps a defined accumulator defined (R86). -/
theorem edgeAcc_ne_none {acc : Option Byte} (h : acc ≠ none) (e : Edge) : edgeAcc acc e ≠ none :=
  fun hundef => h (edgeAcc_eq_none_iff.mp hundef).1

/-- So does every run of edges. -/
theorem accAfter_ne_none {acc : Option Byte} (h : acc ≠ none) (es : List Edge) : accAfter acc es ≠ none :=
  fun hundef => h (accAfter_eq_none_iff.mp hundef).1

/-- `n` steps of the machine take the next `n` edges, or all there are, whatever stands in the state. -/
theorem run_eq_accAfter_take (n : Nat) (s : State) :
    Host.Core.run Sys2Proof.core n s =
      .next { acc := accAfter s.acc (s.edges.take n), edges := s.edges.drop n, draws := s.draws } := by
  induction n generalizing s with
  | zero => rfl
  | succ n ih =>
    cases h : s.edges with
    | nil =>
      rw [run_succ_of_next (step_of_no_edge h), ih, h]
      simp only [List.take_nil, List.drop_nil]
    | cons e rest =>
      rw [run_succ_of_next (step_takes_edge h), ih]
      rfl

/-! ### Edges that present a word by its fields (R50, R73) -/

theorem edgeAcc_cmdWord (acc : Option Byte) (op : OpCode) (d : Byte) :
    edgeAcc acc (Edge.command (cmdWord op d)) = nextAcc op acc d := by
  simp [edgeAcc, Edge.command]

/-- NOP words of any number and any operands leave the accumulator (R81). -/
theorem accAfter_nop_words (acc : Option Byte) (ds : List Byte) :
    accAfter acc (ds.map fun d => Edge.command (cmdWord 0b00#2 d)) = acc := by
  induction ds with
  | nil => rfl
  | cons d ds ih => rw [List.map_cons, accAfter_cons, edgeAcc_cmdWord, nextAcc_nop, ih]

/-- A run that has left 0x00 already ends as it would without a further INIT word (R82). -/
theorem runEdges_append_init_word {es : List Edge} {s : State} (h : accAfter s.acc es = some Config.initValue)
    (d : Byte) : runEdges (es ++ [Edge.command (cmdWord 0b01#2 d)]) s = runEdges es s := by
  have hinit : accAfter s.acc (es ++ [Edge.command (cmdWord 0b01#2 d)]) = some Config.initValue := by
    rw [accAfter_append]
    exact edgeAcc_cmdWord _ 0b01#2 d
  rw [runEdges_eq_accAfter, runEdges_eq_accAfter, hinit, h]

theorem runEdges_reset (w : CmdWord) (s : State) :
    runEdges [Edge.reset w] s = .next (writeAcc (some Config.initValue) s) :=
  runEdges_eq_accAfter [Edge.reset w] s

/-! ### The messages of CALC (R92, R99) -/

theorem accAfter_updates (c : Byte) (message : List Byte) :
    accAfter (some c) (edgesOf (updates message)) = some (fold c message) := by
  induction message generalizing c with
  | nil => rfl
  | cons d message ih =>
    calc accAfter (some c) (edgesOf (updates (d :: message)))
      _ = accAfter (edgeAcc (some c) (Edge.ofInstr (.upd d))) (edgesOf (updates message)) := accAfter_cons _ _ _
      _ = accAfter (some (updateByte c d)) (edgesOf (updates message)) := by rw [edgeAcc_upd, updateAcc_some]
      _ = some (fold c (d :: message)) := by rw [ih, fold_cons]

/-- CALC seeds with INIT, so the accumulator before it does not matter. -/
theorem accAfter_expandCalc (acc : Option Byte) (message : List Byte) :
    accAfter acc (edgesOf (expandCalc message)) = some (crc8 message) := by
  calc accAfter acc (edgesOf (expandCalc message))
    _ = accAfter (edgeAcc acc (Edge.ofInstr .init)) (edgesOf (updates message)) := accAfter_cons _ _ _
    _ = some (crc8 message) := by rw [edgeAcc_init, accAfter_updates, crc8]

theorem runEdges_expandCalc (message : List Byte) (s : State) :
    runEdges (edgesOf (expandCalc message)) s = .next (writeAcc (some (crc8 message)) s) := by
  rw [runEdges_eq_accAfter, accAfter_expandCalc]
  rfl

/-- The last update is of a byte onto itself, whose table index is 0x00. -/
theorem crc8_append_crc8 (message : List Byte) : crc8 (message ++ [crc8 message]) = 0x00#8 := by
  calc crc8 (message ++ [crc8 message])
    _ = updateByte (crc8 message) (crc8 message) := fold_append _ _ _
    _ = 0x00#8 := updateByte_self _

/-! ### The statements about the commands -/

/-- Settles O13: a step changes nothing or writes what an edge makes of `acc`, and no edge makes a value `UNDEF`. -/
theorem definedAccStaysDefined : Obligations.DefinedAccStaysDefined := by
  intro s t hstep hdefined
  cases h : s.edges with
  | nil =>
    rw [step_of_no_edge h] at hstep
    obtain rfl := Host.Outcome.next.inj hstep
    exact hdefined
  | cons e rest =>
    rw [step_takes_edge h] at hstep
    obtain rfl := Host.Outcome.next.inj hstep
    exact edgeAcc_ne_none hdefined e

/-- Settles O1: the decoder by op field, the write of what `acc` holds, and an induction over the words. -/
theorem nopHoldsEverything : Obligations.NopHoldsEverything := by
  refine ⟨decode_cmdWord_nop, rfl, exec_nop, fun ds s => ?_⟩
  rw [runEdges_eq_accAfter, accAfter_nop_words]

/-- Settles O3: the meaning of UPD reads the table at `acc XOR d`, and the table holds the remainders. -/
theorem updFoldsOneByte : Obligations.UpdFoldsOneByte := by
  refine ⟨fun d => ⟨?_, encode_upd d⟩, exec_upd, fun d s => ?_, fun a s h => ⟨?_, ?_⟩⟩
  · rw [← encode_upd, decode_encode]
  · simp only [← T_eq_crc8Byte]
    exact exec_upd d s
  · rw [exec_upd_of_defined h, updateByte_self, writeAcc]
  · rw [exec_upd_of_defined h, updateByte_zero_right, writeAcc]

/-- Settles O5: each command's write on `UNDEF`; a run ends with `accAfter`, which is defined where it began so. -/
theorem commandsOnUnwrittenAcc : Obligations.CommandsOnUnwrittenAcc := by
  refine ⟨fun s hundef => ?_, fun es s hdefined => ?_⟩
  · exact ⟨exec_nop s, exec_upd_of_undef hundef, exec_init s, (exec_load · s), (runEdges_reset · s)⟩
  · exact ⟨_, runEdges_eq_accAfter es s, accAfter_ne_none hdefined es⟩

/-- Settles O6: UPD 0x00 writes `T[acc]`, so it has no effect exactly at the fixed points of the table. -/
theorem zeroByteFixedPoints : Obligations.ZeroByteFixedPoints := by
  intro a s h
  calc exec (.upd 0x00#8) s = .next s
    _ ↔ updateAcc s.acc 0x00#8 = s.acc := exec_upd_eq_next_self_iff
    _ ↔ T a = a := by rw [h, updateAcc_some, updateByte_zero_right, Option.some_inj]
    _ ↔ a = 0x00#8 ∨ a = 0xFD#8 := T_eq_self_iff

/-- Settles O10: the run's end state is known in full for every number of steps. -/
theorem everyRunCompletes : Obligations.EveryRunCompletes :=
  ⟨fun n s => ⟨_, run_eq_accAfter_take n s, rfl, rfl⟩, fun _ h => step_of_no_edge h⟩

/-- Settles O42: CALC leaves the CRC of the longer message, whose last update cancels the first message's CRC. -/
theorem appendedCrcGivesZero : Obligations.AppendedCrcGivesZero := by
  intro message s
  rw [runEdges_expandCalc, crc8_append_crc8, writeAcc]

/-- Settles O2: INIT's write, and a run that has left 0x00 before a further INIT. -/
theorem initSeedsFromAnyContent : Obligations.InitSeedsFromAnyContent := by
  refine ⟨decode_cmdWord_init, rfl, exec_init, fun s d w => ⟨?_, ?_⟩⟩
  · exact runEdges_append_init_word (es := [Edge.command (cmdWord 0b01#2 d)]) (edgeAcc_cmdWord s.acc 0b01#2 d) d
  · exact runEdges_append_init_word (es := [Edge.reset w]) (edgeAcc_reset s.acc w) d

/-- Settles O4: the canonical word of LOAD, its write, and the value that INIT writes too. -/
theorem loadWritesAnyValue : Obligations.LoadWritesAnyValue := by
  refine ⟨fun v => ⟨?_, encode_load v⟩, exec_load, fun s => ?_⟩
  · rw [← encode_load, decode_encode]
  · rw [exec_load, exec_init, Config.initValue]

/-- Settles O7: without reset the edge leaves what the mux selects, which is the meaning of the decoded word. -/
theorem stepRunsDecodedCommand : Obligations.StepRunsDecodedCommand := by
  intro s e rest h hrst
  have hmux : edgeAcc s.acc e = nextAcc e.op s.acc e.din := by simp [edgeAcc, hrst]
  calc step s
    _ = .next { acc := edgeAcc s.acc e, edges := rest, draws := s.draws } := step_takes_edge h
    _ = .next (writeAcc (nextAcc e.op s.acc e.din) { s with edges := rest }) := by rw [hmux, writeAcc]
    _ = exec (decode (cmdWord e.op e.din)) { s with edges := rest } :=
      (exec_decode_word e { s with edges := rest }).symm

end Sys2Proof.Machine

namespace Sys2Proof.Machine

/-! ### Runs by the accumulator they leave, and command sequences one command at a time (R80, R132) -/

/-- A run is known by the accumulator it leaves: the later edges and the draws stay as they were. -/
theorem runEdges_of_accAfter {es : List Edge} {s : State} {v : Option Byte} (h : accAfter s.acc es = v) :
    runEdges es s = .next { s with acc := v } := by
  rw [runEdges_eq_accAfter, h]

theorem accAfter_edgesOf_cons (acc : Option Byte) (i : Instr) (commands : List Instr) :
    accAfter acc (edgesOf (i :: commands)) = accAfter (edgeAcc acc (Edge.ofInstr i)) (edgesOf commands) := rfl

theorem edgesOf_append (before after : List Instr) : edgesOf (before ++ after) = edgesOf before ++ edgesOf after :=
  List.map_append

theorem length_edgesOf_expandCalc (message : List Byte) :
    (edgesOf (expandCalc message)).length = message.length + 1 := by
  simp [edgesOf, expandCalc, updates]

/-! ### Messages folded from a value that a reset or a LOAD has written (R92, R96, R98) -/

/-- A reset edge seeds a message as the INIT of CALC does (R92). -/
theorem accAfter_reset_updates (acc : Option Byte) (w : CmdWord) (message : List Byte) :
    accAfter acc (Edge.reset w :: edgesOf (updates message)) = some (crc8 message) := by
  rw [accAfter_cons, edgeAcc_reset, accAfter_updates, crc8]

/-- A LOAD gives the fold its start value, whatever `acc` held: UPDATE is the case of one byte (R90), the resumed message
the case of many (R98). -/
theorem accAfter_load_updates (acc : Option Byte) (c : Byte) (message : List Byte) :
    accAfter acc (edgesOf (.load c :: updates message)) = some (fold c message) := by
  rw [accAfter_edgesOf_cons, edgeAcc_load, accAfter_updates]

theorem accAfter_expandUpdate (acc : Option Byte) (c b : Byte) :
    accAfter acc (edgesOf (expandUpdate c b)) = some (updateByte c b) :=
  accAfter_load_updates acc c [b]

/-- The first UPDATE of a stream erases `acc` and leaves the value that the host loads next. -/
theorem accAfter_expandStreaming_cons (acc : Option Byte) (c b : Byte) (rest : List Byte) :
    accAfter acc (edgesOf (expandStreaming c (b :: rest)))
      = accAfter (some (updateByte c b)) (edgesOf (expandStreaming (updateByte c b) rest)) := by
  rw [expandStreaming, edgesOf_append, accAfter_append, accAfter_expandUpdate]

/-- A stream ends with the fold, where `acc` and the host agree on the value it starts from. -/
theorem accAfter_expandStreaming (c : Byte) (message : List Byte) :
    accAfter (some c) (edgesOf (expandStreaming c message)) = some (fold c message) := by
  induction message generalizing c with
  | nil => rfl
  | cons b rest ih => rw [accAfter_expandStreaming_cons, ih, fold_cons]

/-- Where there is a byte, the agreement is not needed: the first LOAD seeds (R96). -/
theorem accAfter_expandStreaming_of_byte (acc : Option Byte) (c b : Byte) (rest : List Byte) :
    accAfter acc (edgesOf (expandStreaming c (b :: rest))) = some (fold c (b :: rest)) := by
  rw [accAfter_expandStreaming_cons, accAfter_expandStreaming, fold_cons]

theorem accAfter_init_expandStreaming (acc : Option Byte) (message : List Byte) :
    accAfter acc (edgesOf (.init :: expandStreaming Config.initValue message)) = some (crc8 message) := by
  rw [accAfter_edgesOf_cons, edgeAcc_init, accAfter_expandStreaming, crc8]

/-- The fold of the first part is the start value of the second (R99), so LOAD may carry it past any interruption. -/
theorem accAfter_resumed (acc : Option Byte) (first second : List Byte) :
    accAfter acc (edgesOf (.load (crc8 first) :: updates second)) = some (crc8 (first ++ second)) := by
  rw [accAfter_load_updates, crc8, crc8, fold_append]

/-! ### Edges that keep the accumulator, and edges that do not read it (R81, R97) -/

/-- Edges that leave every accumulator may be dropped from a run. -/
theorem accAfter_filter {kept : Edge → Bool} (hdropped : ∀ e, kept e = false → ∀ acc, edgeAcc acc e = acc)
    (acc : Option Byte) (es : List Edge) : accAfter acc (es.filter kept) = accAfter acc es := by
  induction es generalizing acc with
  | nil => rfl
  | cons e es ih =>
    cases h : kept e with
    | true => rw [List.filter_cons_of_pos h, accAfter_cons, accAfter_cons, ih]
    | false => rw [List.filter_cons_of_neg (Bool.eq_false_iff.mp h), accAfter_cons, hdropped e h, ih]

/-- An edge that is neither a reset nor any other command than NOP leaves the accumulator (R81). -/
theorem edgeAcc_of_nop {e : Edge} (h : (e.rst || e.op != 0b00#2) = false) (acc : Option Byte) :
    edgeAcc acc e = acc := by
  obtain ⟨hrst, hop⟩ := Bool.or_eq_false_iff.mp h
  simp [edgeAcc, hrst, bne_eq_false_iff_eq.mp hop, nextAcc_nop]

/-- A reset, an INIT and a LOAD write `acc` without reading it (R82, R84, R120). -/
theorem edgeAcc_eq_of_defining {e : Edge} (h : e.rst = true ∨ e.op = 0b01#2 ∨ e.op = 0b11#2)
    (acc acc' : Option Byte) : edgeAcc acc e = edgeAcc acc' e := by
  obtain hrst | hop | hop := h
  · simp [edgeAcc, hrst]
  · simp [edgeAcc, hop, nextAcc_init]
  · simp [edgeAcc, hop, nextAcc_load]

/-! ### The statements about the operations -/

/-- Settles O35: INIT and a reset edge both leave 0x00, from which the updates fold the message. -/
theorem calcComputesCrc : Obligations.CalcComputesCrc := by
  intro message s
  refine ⟨length_edgesOf_expandCalc message, runEdges_expandCalc message s, fun w => ?_, fun hzero => ?_⟩
  · exact runEdges_of_accAfter (accAfter_reset_updates s.acc w message)
  · exact runEdges_of_accAfter (hzero ▸ accAfter_updates Config.initValue message)

/-- Settles O37: LOAD and the one update after it; without the LOAD, the same update on the value `acc` holds. -/
theorem updateGivesTableEntry : Obligations.UpdateGivesTableEntry := by
  refine fun c b s => ⟨rfl, rfl, ?_, fun hheld => ?_⟩
  · exact runEdges_of_accAfter (accAfter_expandUpdate s.acc c b)
  · exact runEdges_of_accAfter (hheld ▸ accAfter_updates c [b])

/-- Settles O38: a stream folds as CALC does, by induction over the message; the source's example is that equality at one
message, whose CRC is computed. -/
theorem streamingAgreesWithBulk : Obligations.StreamingAgreesWithBulk := by
  have hcalc (message : List Byte) (s : State) :
      runEdges (edgesOf (expandCalc message)) s = .next { s with acc := some (crc8 message) } :=
    runEdges_expandCalc message s
  have hstream (b : Byte) (rest : List Byte) (s : State) :
      runEdges (edgesOf (expandStreaming 0x00#8 (b :: rest))) s = .next { s with acc := some (crc8 (b :: rest)) } :=
    runEdges_of_accAfter (accAfter_expandStreaming_of_byte s.acc 0x00#8 b rest)
  have hsource : crc8 [0x31#8, 0x32#8, 0x33#8] = 0xC0#8 := by decide
  refine ⟨fun message s => ⟨?_, hcalc message s⟩, fun b rest s => ?_, rfl, rfl, fun s => ⟨?_, ?_⟩⟩
  · exact runEdges_of_accAfter (accAfter_init_expandStreaming s.acc message)
  · rw [hstream, hcalc]
  · rw [hstream, hsource]
  · rw [hcalc, hsource]

/-- Settles O39: only edges that leave the accumulator are taken out, so `accAfter_filter` applies. -/
theorem nopsDoNotMatter : Obligations.NopsDoNotMatter := by
  intro es s
  rw [runEdges_eq_accAfter, runEdges_eq_accAfter, accAfter_filter (fun _ => edgeAcc_of_nop)]

/-- Settles O40: the LOAD erases what stood between, and the fold of the whole message splits at the interruption. -/
theorem suspendedMessageResumes : Obligations.SuspendedMessageResumes := by
  intro first second between s
  apply runEdges_of_accAfter
  rw [accAfter_append, accAfter_resumed]

/-- Settles O41: the first edge writes the same value from every content, so the run may be computed from `UNDEF`. -/
theorem definingEdgeErasesHistory : Obligations.DefiningEdgeErasesHistory := by
  intro e es hdefining
  refine ⟨accAfter none (e :: es), fun s => runEdges_of_accAfter ?_⟩
  rw [accAfter_cons, edgeAcc_eq_of_defining hdefining s.acc none, accAfter_cons]

/-- Settles O33: the fold's two equations, its split over an append, and the first byte of a message from 0x00. -/
theorem foldLaws : Obligations.FoldLaws :=
  ⟨fun _ => rfl, fold_cons, fun _ => rfl, fold_append, rfl, updateByte_initValue⟩

/-- Settles O36: both expansions are CALC of the empty message, whose CRC is the initial value. -/
theorem emptyAndNullCalc : Obligations.EmptyAndNullCalc :=
  ⟨rfl, rfl, fun s => ⟨runEdges_expandCalc [] s, runEdges_expandCalc [] s⟩⟩

end Sys2Proof.Machine

namespace Sys2Proof.Machine

/-! ### Reset before command (R103, R120) -/

theorem edgeAcc_of_rst {e : Edge} (hrst : e.rst = true) (acc : Option Byte) :
    edgeAcc acc e = some Config.initValue := by
  rw [edgeAcc, if_pos hrst]

/-- What a reset edge leaves behind: 0x00, and no trace of the word presented with it. -/
theorem runEdges_reset_cons (w : CmdWord) (es : List Edge) (s : State) :
    runEdges (Edge.reset w :: es) s = runEdges es (resetAcc s) := by
  rw [runEdges_eq_accAfter, runEdges_eq_accAfter, accAfter_cons, edgeAcc_reset]
  rfl

/-- Settles O8: a step writes what the edge makes of `acc`, which `rst` alone decides; a run after a reset edge is the run
from 0x00, and a run of one word is the meaning of that word. -/
theorem resetWinsOverCommand : Obligations.ResetWinsOverCommand := by
  refine ⟨fun s e rest h hrst => ?_, fun s w v => ?_, fun s v => runEdges_command v s⟩
  · rw [step_takes_edge h, edgeAcc_of_rst hrst, Config.initValue]
  · rw [runEdges_reset_cons, runEdges_command, resetAcc, writeAcc, Config.initValue]

end Sys2Proof.Machine

namespace Sys2Proof.Machine

/-! ### Resets held for several edges, and messages without a seed (R121, R122, R125) -/

/-- A run splits where its first part has left a known accumulator. -/
theorem runEdges_append_of_accAfter {es : List Edge} {s : State} {v : Option Byte} (h : accAfter s.acc es = v)
    (fs : List Edge) : runEdges (es ++ fs) s = runEdges fs { s with acc := v } := by
  rw [runEdges_eq_accAfter, runEdges_eq_accAfter, accAfter_append, h]

/-- Each further reset edge rewrites the value that the first one wrote. -/
theorem accAfter_reset_edges (acc : Option Byte) (w : CmdWord) (ws : List CmdWord) :
    accAfter acc (Edge.reset w :: ws.map Edge.reset) = some Config.initValue := by
  induction ws generalizing acc w with
  | nil => exact edgeAcc_reset acc w
  | cons w' ws ih => rw [List.map_cons, accAfter_cons, ih]

/-- Settles O16: the reset edges leave 0x00, by induction over the further ones, and the run goes on from there. -/
theorem oneResetEdgeIsComplete : Obligations.OneResetEdgeIsComplete := by
  intro w ws es s
  exact runEdges_append_of_accAfter (accAfter_reset_edges s.acc w ws) es

/-- Settles O34: the fold of the updates from the value that `acc` held. -/
theorem unseededMessageFoldsOntoAcc : Obligations.UnseededMessageFoldsOntoAcc := by
  intro message c s hheld
  apply runEdges_of_accAfter
  rw [hheld, accAfter_updates]

/-- Settles O17: the three edges write the same byte, and a run of one edge is known by what it writes. -/
theorem resetInitLoadZeroAgree : Obligations.ResetInitLoadZeroAgree := by
  intro s w
  have hreset : runEdges [Edge.reset w] s = .next { s with acc := some 0x00#8 } := runEdges_reset w s
  refine ⟨hreset, ?_, ?_⟩
  · rw [hreset]
    exact runEdges_of_accAfter (edgeAcc_init s.acc)
  · rw [hreset]
    exact runEdges_of_accAfter (edgeAcc_load s.acc 0x00#8)

end Sys2Proof.Machine
